-- ==== Sys2Proof/Config.lean ====
section
/-! DEFINITION. The implementation parameters of 00_scope.md R6, and the parameters the spec leaves OPEN. -/

namespace Sys2Proof.Config

/-- Bytes of a block (R6 BLOCK_BYTES). -/
abbrev blockBytes : Nat := 16
/-- Bytes of a key (R6 KEY_BYTES). -/
abbrev keyBytes : Nat := 16
/-- Rounds of a block operation and of the key schedule (R6 ROUNDS). -/
abbrev rounds : Nat := 32
/-- Round keys (R6 N_RK). -/
abbrev nRk : Nat := 32
/-- Lanes of the vector engine (R6 NLANES). -/
abbrev nLanes : Nat := 8
/-- Blocks of the data buffer (R6 DBUF_BLOCKS). -/
abbrev dbufBlocks : Nat := 8
/-- Bytes of the data buffer: DB[0..127] (10_state.md R20). -/
abbrev dbBytes : Nat := 128
/-- Bits of a window offset (R6 OFFSET_BITS). -/
abbrev offsetBits : Nat := 9
/-- Bytes of the register window, offsets 0x000 to 0x1FF (20_memory.md R50). -/
abbrev windowBytes : Nat := 512
/-- Bits of the only legal host access (R6 HOST_DATA_BITS). -/
abbrev hostDataBits : Nat := 32
/-- Bits of ERRCODE (R6 ERRCODE_BITS). -/
abbrev errcodeBits : Nat := 4

/-- SM4RE_BASE, the platform's base address of the window: OPEN (20_memory.md R51), no value is given, a claim holds for
every base (log 8). -/
opaque sm4reBase : Nat

/-- NUM_INSTANCES, the number of independent instances on the host bus: OPEN (R6, 60_exceptions.md R235; log 9). -/
opaque numInstances : Nat

/-- LAT_KEYEXP: OPEN, timing only, no rule depends on it (R6, 70_reset_and_hazards.md R262; log 7). -/
opaque latKeyexp : Nat
/-- LAT_CRYPT1: OPEN, as `latKeyexp`. -/
opaque latCrypt1 : Nat
/-- LAT_CRYPT8: OPEN, as `latKeyexp`. -/
opaque latCrypt8 : Nat
/-- LAT_XFORM8: OPEN, as `latKeyexp`. -/
opaque latXform8 : Nat

end Sys2Proof.Config
end

