-- ==== Sys2Proof/Word.lean ====
section
/-! DEFINITION. The word types of SM4RE and the four-word group its engines work on (00_scope.md R6, R7, R9). -/

namespace Sys2Proof

/-- A 32-bit word, bits 31..0 (R6 WORD, R7). All values are unsigned (R9). -/
abbrev Word := BitVec 32

/-- An 8-bit byte. -/
abbrev Byte := BitVec 8

/-- A 256-bit lane register LXi, 8 lanes of 32 bits (10_state.md R33, R6 LANE_REG_BITS). -/
abbrev LaneReg := BitVec 256

/-- Four 32-bit words in order: a block's X0..X3, a master key's MK[0..3], a window K[i..i+3] of the key schedule
(00_scope.md glossary "Block"; 43_scalar_engine.md R160; 42_key_schedule.md R140). -/
structure Block where
  x0 : Word
  x1 : Word
  x2 : Word
  x3 : Word
deriving DecidableEq, Repr

end Sys2Proof
end

