-- ==== Sys2Proof/Syntax.lean ====
section
/-! DEFINITION. The commands of SM4RE: one constructor per row of spec/opcode_table.json (30_encoding.md R73). -/

namespace Sys2Proof

/-- A decoded command (30_encoding.md R73). Operands are the unsigned field values taken as they are (R72): b is the block
index BSEL, w the word position WSEL. Their ranges are checked by `Instr.wellFormed`. -/
inductive Instr where
  /-- NOP (45_control_and_host_access.md R200) -/
  | nop
  /-- KEYEXP (42_key_schedule.md R141) -/
  | keyexp
  /-- ENC1 b (43_scalar_engine.md R162) -/
  | enc1 (b : Nat)
  /-- DEC1 b (43_scalar_engine.md R163) -/
  | dec1 (b : Nat)
  /-- ENC8 (44_vector_engine.md R184) -/
  | enc8
  /-- DEC8 (44_vector_engine.md R185) -/
  | dec8
  /-- SUB8 w (44_vector_engine.md R187) -/
  | sub8 (w : Nat)
  /-- TAU8 w (44_vector_engine.md R188) -/
  | tau8 (w : Nat)
  /-- TAUK8 w (44_vector_engine.md R189) -/
  | tauk8 (w : Nat)
deriving DecidableEq, Repr

end Sys2Proof
end

