-- ==== Sys2Proof/Decode.lean ====
section
/-! DEFINITION. Decoding and encoding of command words (30_encoding.md R70 to R76), both written from the table of R73. -/

namespace Sys2Proof

/-! ## Fields of format CMDW (R71) -/

/-- OP, bits 3:0 (R71). -/
def fieldOp (c : Word) : Nat := (c.extractLsb' 0 4).toNat
/-- DIR, bit 4 (R71). -/
def fieldDir (c : Word) : Nat := (c.extractLsb' 4 1).toNat
/-- BSEL, bits 7:5 (R71). -/
def fieldBsel (c : Word) : Nat := (c.extractLsb' 5 3).toNat
/-- WSEL, bits 9:8 (R71). -/
def fieldWsel (c : Word) : Nat := (c.extractLsb' 8 2).toNat
/-- FN, bits 11:10 (R71). -/
def fieldFn (c : Word) : Nat := (c.extractLsb' 10 2).toNat
/-- RSV, bits 31:12 (R71). -/
def fieldRsv (c : Word) : Nat := (c.extractLsb' 12 20).toNat

/-! ## The opcode map (R73) -/

/-- One row of R73. A command word c selects it when (c AND mask) = pattern; `build` reads the free field. -/
structure Row where
  pattern : Word
  mask : Word
  build : Word → Instr

/-- Does the word select the row? R73: "A word w selects row R when (w & mask) = match". -/
def Row.selects (r : Row) (c : Word) : Bool := (c &&& r.mask) == r.pattern

/-- Row NOP of R73. -/
def rowNop : Row := ⟨0x00000000, 0xFFFFFFFF, fun _ => .nop⟩
/-- Row KEYEXP of R73. -/
def rowKeyexp : Row := ⟨0x00000001, 0xFFFFFFFF, fun _ => .keyexp⟩
/-- Row ENC1 of R73, BSEL free. -/
def rowEnc1 : Row := ⟨0x00000002, 0xFFFFFF1F, fun c => .enc1 (fieldBsel c)⟩
/-- Row DEC1 of R73, BSEL free. -/
def rowDec1 : Row := ⟨0x00000012, 0xFFFFFF1F, fun c => .dec1 (fieldBsel c)⟩
/-- Row ENC8 of R73. -/
def rowEnc8 : Row := ⟨0x00000003, 0xFFFFFFFF, fun _ => .enc8⟩
/-- Row DEC8 of R73. -/
def rowDec8 : Row := ⟨0x00000013, 0xFFFFFFFF, fun _ => .dec8⟩
/-- Row SUB8 of R73, WSEL free. -/
def rowSub8 : Row := ⟨0x00000004, 0xFFFFFCFF, fun c => .sub8 (fieldWsel c)⟩
/-- Row TAU8 of R73, WSEL free. -/
def rowTau8 : Row := ⟨0x00000404, 0xFFFFFCFF, fun c => .tau8 (fieldWsel c)⟩
/-- Row TAUK8 of R73, WSEL free. -/
def rowTauk8 : Row := ⟨0x00000804, 0xFFFFFCFF, fun c => .tauk8 (fieldWsel c)⟩

/-- The nine rows, in the order of R73. -/
def opcodeRows : List Row :=
  [rowNop, rowKeyexp, rowEnc1, rowDec1, rowEnc8, rowDec8, rowSub8, rowTau8, rowTauk8]

/-! ## Decoding (R75, R76) -/

/-- Why a word is illegal, one name for each kind of R76's list. All of them are the one error ILLEGAL_CMD (log 13). -/
inductive Reject where
  /-- OP = 5 to 15, whatever the other bits (R76). -/
  | reservedOp
  /-- OP = 4 with FN = 3 (R76). -/
  | reservedFn
  /-- A bit is set in a field that the OP requires to be 0 (R76). -/
  | fieldNotZero
deriving DecidableEq, Repr

/-- The name of the rejection of a word that selects no row (R76). -/
def rejectReason (c : Word) : Reject :=
  if 5 ≤ fieldOp c then .reservedOp
  else if fieldOp c = 4 ∧ fieldFn c = 3 then .reservedFn
  else .fieldNotZero

/-- Decode a command word: the row it selects, with its operands, or the name of its rejection (R75, R76). Total. -/
def decode (c : Word) : Except Reject Instr :=
  match opcodeRows.find? (fun r => r.selects c) with
  | some r => .ok (r.build c)
  | none => .error (rejectReason c)

/-! ## Encoding (R78) -/

/-- A block index placed in BSEL, bits 7:5 (R71, R78). -/
def placeBsel (b : Nat) : Word := BitVec.ofNat 32 b <<< 5
/-- A word position placed in WSEL, bits 9:8 (R71, R78). -/
def placeWsel (w : Nat) : Word := BitVec.ofNat 32 w <<< 8

/-- The command word of a well-formed command (R73, R78). -/
def encode : Instr → Word
  | .nop => 0x00000000
  | .keyexp => 0x00000001
  | .enc1 b => 0x00000002 ||| placeBsel b
  | .dec1 b => 0x00000012 ||| placeBsel b
  | .enc8 => 0x00000003
  | .dec8 => 0x00000013
  | .sub8 w => 0x00000004 ||| placeWsel w
  | .tau8 w => 0x00000404 ||| placeWsel w
  | .tauk8 w => 0x00000804 ||| placeWsel w

/-- The row of R73 that a command's words select. -/
def rowOf : Instr → Row
  | .nop => rowNop
  | .keyexp => rowKeyexp
  | .enc1 _ => rowEnc1
  | .dec1 _ => rowDec1
  | .enc8 => rowEnc8
  | .dec8 => rowDec8
  | .sub8 _ => rowSub8
  | .tau8 _ => rowTau8
  | .tauk8 _ => rowTauk8

/-! ## The host's numbering of an instruction's bits -/

/-- The command word whose low `nbits` bits are those of w and whose other bits are 0. A command word is delivered as one
32-bit number (20_memory.md R55, 30_encoding.md R70), so no byte order enters (log 11). -/
def tableWord (nbits w : Nat) : Word := BitVec.ofNat 32 (w % 2 ^ nbits)

/-- What the decoder reads from an instruction of spec/opcode_table.json whose bits are w. -/
def decodeTableWord (nbits w : Nat) : Option Instr :=
  match decode (tableWord nbits w) with
  | .ok i => some i
  | .error _ => none

end Sys2Proof
end

