-- ==== Sys2Proof/Machine/State.lean ====
section
/-! DEFINITION. The architectural state of one SM4RE instance (10_state.md R20), the host's requests and the answers it gets
(45_control_and_host_access.md R207), and the reset state (R43). -/

namespace Sys2Proof.Machine

/-! ## What the host sends -/

/-- The kind of a host access (45_control_and_host_access.md R207). -/
inductive AccessKind where
  | read
  | write
deriving DecidableEq, Repr

/-- A host access: the request (kind, offset, size, data) of 45_control_and_host_access.md R207. The offset is one of the
window's 0x000..0x1FF (20_memory.md R50), size is the access width in bits, data the 32-bit value of a write. -/
structure Access where
  kind : AccessKind
  offset : BitVec 9
  size : Nat
  data : Word
deriving DecidableEq, Repr

/-- What can happen to SM4RE in one step: a host access, or a reset, which is "a step of its own, ordered with host
accesses" (70_reset_and_hazards.md R250). -/
inductive HostEvent where
  | access (a : Access)
  | reset
deriving DecidableEq, Repr

/-! ## The registers a host can address -/

/-- The registers of the map of 20_memory.md R52, and no others (10_state.md R31). -/
inductive Reg where
  | cmd
  | status
  | key (n : Fin 4)
  | rk (i : Fin 32)
  | dbuf (n : Fin 32)
deriving DecidableEq, Repr

/-! ## Errors, faults, refusals -/

/-- The causes of an error the machine records (60_exceptions.md R221). -/
inductive ErrorCause where
  /-- A CMD write whose word matches no row (code 1). -/
  | illegalCmd
  /-- ENC1, DEC1, ENC8 or DEC8 with KSV = 0 (code 2). -/
  | noKey
  /-- A bad width, alignment or offset, or a write to RK (code 3). -/
  | bus
deriving DecidableEq, Repr

/-- What stops the model. The machine itself never stops: its errors are recorded in STATUS (60_exceptions.md R220) and the
step goes on. -/
inductive Fault where
  /-- Raised by the meanings of ENC1 and DEC1 for a block index above 7, which no command word encodes and which
  30_encoding.md R78 calls an assembly error. DB has no such block (10_state.md R23). Never raised by `step`. Safe (log 4). -/
  | noSuchBlock
  /-- Raised by the meanings of SUB8, TAU8 and TAUK8 for a word position above 3, which no command word encodes (R78). Never
  raised by `step`. Safe (log 4). -/
  | noSuchLaneWord
deriving DecidableEq, Repr

/-- Why a meaning is refused. -/
inductive Refusal where
  /-- Raised by an arm of `exec` whose command has no meaning yet: there is none. Safe. -/
  | notModelled (mnemonic : String)
deriving DecidableEq, Repr

/-! ## The state -/

/-- The bytes of the data buffer: (address, byte) pairs with strictly rising addresses, none of them the byte an unlisted
address reads as (`Memory.unlisted`). -/
abbrev Memory := List Host.Cell

/-- The state: the fields of 10_state.md R20, "exactly", and the model's own two lists for the outside world (log 1). -/
structure State where
  /-- KEYB[0..15], the 16-byte master key (10_state.md R21). -/
  keyb : Vector Byte 16
  /-- RK[0..31], the round keys in encryption order (R22). -/
  rk : Vector Word 32
  /-- DB[0..127], the data buffer of 8 blocks (R23). -/
  db : Memory
  /-- STATUS.KSV: RK holds the key schedule of the current KEYB (R25, R27). -/
  ksv : Bool
  /-- STATUS.ERR: an error is recorded and not yet cleared (R25). -/
  err : Bool
  /-- STATUS.ERRCODE: the cause of the first error since ERR was last clear (R25). -/
  errcode : BitVec 4
  /-- The model's own: host events still to take effect, oldest first (log 1). -/
  requests : List HostEvent
  /-- The model's own: the values the host's reads have returned, oldest first (log 1). -/
  responses : List Word
deriving DecidableEq, Repr

/-- The state after reset: every register and buffer zero, KSV, ERR and ERRCODE 0 (10_state.md R43, 70_reset_and_hazards.md
R250). Memory lists nothing, since DB is all 0x00. The two lists of the outside world are empty (DESIGN CHOICE, log 1). -/
def State.reset : State where
  keyb := Vector.replicate 16 0
  rk := Vector.replicate 32 0
  db := []
  ksv := false
  err := false
  errcode := 0
  requests := []
  responses := []

end Sys2Proof.Machine
end

