-- ==== Sys2Proof/Machine/Control.lean ====
section
/-! DEFINITION. The meaning of NOP (45_control_and_host_access.md R200). -/

namespace Sys2Proof.Machine

/-- NOP: nothing; it does not require KSV (R200). -/
def execNop (s : State) : Host.Outcome State Fault Refusal := .next s

end Sys2Proof.Machine
end

