-- ==== Sys2Proof/Machine/Flags.lean ====
section
/-! DEFINITION. STATUS: its view as a 32-bit register and the error codes. SM4RE has no condition codes (10_state.md R34):
the only status bits are KSV, ERR and ERRCODE. -/

namespace Sys2Proof.Machine

/-- The 4-bit code of a cause (60_exceptions.md R221). Code 0 is NONE, codes 4 to 15 are never produced. -/
def ErrorCause.code : ErrorCause → BitVec 4
  | .illegalCmd => 1
  | .noKey => 2
  | .bus => 3

/-- One status bit as a 32-bit word. -/
def bitWord (b : Bool) : Word := (BitVec.ofBool b).setWidth 32

/-- The value of STATUS: (ERRCODE << 4) | (ERR << 1) | KSV (10_state.md R25). The reserved bits 3:2 and 31:8 read 0. -/
def statusWord (s : State) : Word :=
  (s.errcode.setWidth 32 <<< 4) ||| (bitWord s.err <<< 1) ||| bitWord s.ksv

end Sys2Proof.Machine
end

