-- ==== Sys2Proof/Machine/Operands.lean ====
section
/-! DEFINITION. Operand forms: big-endian words, the bytes a block index and a word position select, the register a window
offset selects, and the round-key sequences of the two directions. -/

namespace Sys2Proof.Machine

/-! ## Byte order (00_scope.md R8, R10) -/

/-- Byte position p of a word: byte_p(x) = x[8p+7:8p] (R8). -/
def byteAt (p : Nat) (x : Word) : Byte := x.extractLsb' (8 * p) 8

/-- BE32(b0, b1, b2, b3), the first byte the most significant (R10). -/
def be32 (b0 b1 b2 b3 : Byte) : Word :=
  (b0.setWidth 32 <<< 24) ||| (b1.setWidth 32 <<< 16) ||| (b2.setWidth 32 <<< 8) ||| b3.setWidth 32

/-! ## Addresses in the data buffer (10_state.md R23, 20_memory.md R60) -/

/-- The byte address of word i of block b: 16b + 4i (R23, R60). -/
def wordAddr (b i : Nat) : Nat := 16 * b + 4 * i

/-- The byte address of register DBUFn: 4n (R23). -/
def dbufAddr (n : Fin 32) : Nat := 4 * n.val

/-! ## Round-key sequences (10_state.md R22, R24; 30_encoding.md R72) -/

/-- rk_enc[i] = RK[i] (R22), the sequence DIR = 0 selects (R72). -/
def rkEnc (s : State) : Vector Word 32 := s.rk

/-- rk_dec[i] = RK[31-i] (R24), the sequence DIR = 1 selects (R72). -/
def rkDec (s : State) : Vector Word 32 := Vector.ofFn fun i : Fin 32 => s.rk[31 - i.val]

/-! ## The register map (20_memory.md R52) -/

/-- The window offset of a register (R52). -/
def Reg.offset : Reg → BitVec 9
  | .cmd => 0x000
  | .status => 0x004
  | .key n => BitVec.ofNat 9 (0x010 + 4 * n.val)
  | .rk i => BitVec.ofNat 9 (0x080 + 4 * i.val)
  | .dbuf n => BitVec.ofNat 9 (0x100 + 4 * n.val)

/-- The register at a window offset; none where the offset is no multiple of 4 (R53) or unmapped (R52, R54). -/
def regAt (o : BitVec 9) : Option Reg :=
  let a := o.toNat
  if a % 4 ≠ 0 then none
  else if a = 0x000 then some .cmd
  else if a = 0x004 then some .status
  else if h : 0x010 ≤ a ∧ a ≤ 0x01C then some (.key ⟨(a - 0x010) / 4, by omega⟩)
  else if h : 0x080 ≤ a ∧ a ≤ 0x0FC then some (.rk ⟨(a - 0x080) / 4, by omega⟩)
  else if h : 0x100 ≤ a ∧ a ≤ 0x17C then some (.dbuf ⟨(a - 0x100) / 4, by omega⟩)
  else none

end Sys2Proof.Machine
end

