-- ==== Sys2Proof/Machine/Ops.lean ====
section
/-! DEFINITION. The named operations over the data buffer, the key register and STATUS: reading and writing DB and KEYB
(00_scope.md R11), recording an error (60_exceptions.md R223) and clearing it (R226). -/

namespace Sys2Proof.Machine

/-! ## Memory as a canonical list -/

/-- What an address that is not listed reads as: 0x00, the reset contents of DB (10_state.md R43). -/
def Memory.unlisted : Byte := 0x00

/-- DB[a]: read byte a (00_scope.md R11). -/
def Memory.read : Memory → Nat → Byte
  | [], _ => Memory.unlisted
  | (k, v) :: m, a => if k = a then v else Memory.read m a

/-- DB[a] <- v: write byte a, keeping the addresses rising and listing no byte equal to `Memory.unlisted`. -/
def Memory.write : Memory → Nat → Byte → Memory
  | [], a, v => if v = Memory.unlisted then [] else [(a, v)]
  | (k, u) :: m, a, v =>
    if a < k then (if v = Memory.unlisted then (k, u) :: m else (a, v) :: (k, u) :: m)
    else if a = k then (if v = Memory.unlisted then m else (a, v) :: m)
    else (k, u) :: Memory.write m a v

/-- Every listed address is at least `lo` and below `hi`, addresses rise strictly, and no listed byte is the unlisted one. -/
def Memory.wfFrom (hi : Nat) : Nat → Memory → Bool
  | _, [] => true
  | lo, (k, v) :: m => decide (lo ≤ k) && decide (k < hi) && decide (v ≠ Memory.unlisted) && Memory.wfFrom hi (k + 1) m

/-- The canonical form of the data buffer DB[0..127] (10_state.md R23). -/
def Memory.wf (m : Memory) : Bool := Memory.wfFrom 128 0 m

/-- MemRead(a, 4) = BE32(DB[a], DB[a+1], DB[a+2], DB[a+3]) (00_scope.md R11). -/
def memRead (m : Memory) (a : Nat) : Word :=
  be32 (m.read a) (m.read (a + 1)) (m.read (a + 2)) (m.read (a + 3))

/-- MemWrite(a, 4, v): BYTES_BE(v) to DB[a..a+3] (00_scope.md R10, R11). -/
def memWrite (m : Memory) (a : Nat) (v : Word) : Memory :=
  (((m.write a (byteAt 3 v)).write (a + 1) (byteAt 2 v)).write (a + 2) (byteAt 1 v)).write (a + 3) (byteAt 0 v)

/-- The four words X0..X3 of block b, read before anything is written (43_scalar_engine.md R162). -/
def loadBlock (m : Memory) (b : Nat) : Block :=
  ⟨memRead m (wordAddr b 0), memRead m (wordAddr b 1), memRead m (wordAddr b 2), memRead m (wordAddr b 3)⟩

/-- Write four words to block b, in the order i = 0 .. 3 (43_scalar_engine.md R162). -/
def storeBlock (m : Memory) (b : Nat) (y : Block) : Memory :=
  memWrite (memWrite (memWrite (memWrite m (wordAddr b 0) y.x0) (wordAddr b 1) y.x1) (wordAddr b 2) y.x2) (wordAddr b 3) y.x3

/-! ## The key register -/

/-- KeyRead(n) = BE32(KEYB[4n], .., KEYB[4n+3]) (00_scope.md R11). -/
def keyRead (k : Vector Byte 16) (n : Fin 4) : Word :=
  be32 k[4 * n.val] k[4 * n.val + 1] k[4 * n.val + 2] k[4 * n.val + 3]

/-- (KEYB[4n], .., KEYB[4n+3]) <- BYTES_BE(v) (20_memory.md R55). -/
def keyWrite (k : Vector Byte 16) (n : Fin 4) (v : Word) : Vector Byte 16 :=
  (((k.set (4 * n.val) (byteAt 3 v)).set (4 * n.val + 1) (byteAt 2 v)).set (4 * n.val + 2) (byteAt 1 v)).set
    (4 * n.val + 3) (byteAt 0 v)

/-- The master key as four big-endian words, MK[n] = KeyRead(n) (10_state.md R21). -/
def masterKey (k : Vector Byte 16) : Block := ⟨keyRead k 0, keyRead k 1, keyRead k 2, keyRead k 3⟩

/-! ## Updates of the state, one field group each -/

/-- Replace KEYB. -/
def State.setKeyb (s : State) (k : Vector Byte 16) : State := { s with keyb := k }
/-- Replace RK. -/
def State.setRk (s : State) (r : Vector Word 32) : State := { s with rk := r }
/-- Replace the data buffer. -/
def State.setDb (s : State) (m : Memory) : State := { s with db := m }
/-- Set or clear KSV. -/
def State.setKsv (s : State) (b : Bool) : State := { s with ksv := b }
/-- Set ERR and ERRCODE. -/
def State.setError (s : State) (b : Bool) (c : BitVec 4) : State := { s with err := b, errcode := c }
/-- Replace the host events still to take effect. -/
def State.setRequests (s : State) (r : List HostEvent) : State := { s with requests := r }
/-- A read returns v to the host. -/
def State.respond (s : State) (v : Word) : State := { s with responses := s.responses ++ [v] }

/-! ## Recording and clearing an error -/

/-- raise Error(code): with ERR = 0, ERR <- 1 and ERRCODE <- code; with ERR = 1 nothing, the first error is kept. Nothing else
is saved or changed (60_exceptions.md R223). This is the machine's exception entry: no transfer of control, no mode. -/
def raiseError (c : ErrorCause) (s : State) : State :=
  if s.err then s else s.setError true c.code

/-- ERR <- 0 and ERRCODE <- 0, what a STATUS write with bit 1 set does (60_exceptions.md R226,
45_control_and_host_access.md R204). This is the return: nothing else is restored. -/
def clearError (s : State) : State := s.setError false 0

end Sys2Proof.Machine
end

