-- ==== Sys2Proof/Machine/Tables.lean ====
section
/-! DEFINITION. The constant tables SBOX, SBOX32, FK and CK (40_constant_tables.md). They are constants, not state
(10_state.md R32). The spec marks their values as general knowledge, checked against its known-answer vector (R107; log 5). -/

namespace Sys2Proof.Machine

/-! ## SBOX (R101) -/

/-- Row 0 of the table of R101: SBOX[0x00 .. 0x0F]. -/
def sboxRow0 : Vector Byte 16 :=
  #v[0xD6, 0x90, 0xE9, 0xFE, 0xCC, 0xE1, 0x3D, 0xB7, 0x16, 0xB6, 0x14, 0xC2, 0x28, 0xFB, 0x2C, 0x05]
/-- Row 1 of the table of R101: SBOX[0x10 .. 0x1F]. -/
def sboxRow1 : Vector Byte 16 :=
  #v[0x2B, 0x67, 0x9A, 0x76, 0x2A, 0xBE, 0x04, 0xC3, 0xAA, 0x44, 0x13, 0x26, 0x49, 0x86, 0x06, 0x99]
/-- Row 2 of the table of R101: SBOX[0x20 .. 0x2F]. -/
def sboxRow2 : Vector Byte 16 :=
  #v[0x9C, 0x42, 0x50, 0xF4, 0x91, 0xEF, 0x98, 0x7A, 0x33, 0x54, 0x0B, 0x43, 0xED, 0xCF, 0xAC, 0x62]
/-- Row 3 of the table of R101: SBOX[0x30 .. 0x3F]. -/
def sboxRow3 : Vector Byte 16 :=
  #v[0xE4, 0xB3, 0x1C, 0xA9, 0xC9, 0x08, 0xE8, 0x95, 0x80, 0xDF, 0x94, 0xFA, 0x75, 0x8F, 0x3F, 0xA6]
/-- Row 4 of the table of R101: SBOX[0x40 .. 0x4F]. -/
def sboxRow4 : Vector Byte 16 :=
  #v[0x47, 0x07, 0xA7, 0xFC, 0xF3, 0x73, 0x17, 0xBA, 0x83, 0x59, 0x3C, 0x19, 0xE6, 0x85, 0x4F, 0xA8]
/-- Row 5 of the table of R101: SBOX[0x50 .. 0x5F]. -/
def sboxRow5 : Vector Byte 16 :=
  #v[0x68, 0x6B, 0x81, 0xB2, 0x71, 0x64, 0xDA, 0x8B, 0xF8, 0xEB, 0x0F, 0x4B, 0x70, 0x56, 0x9D, 0x35]
/-- Row 6 of the table of R101: SBOX[0x60 .. 0x6F]. -/
def sboxRow6 : Vector Byte 16 :=
  #v[0x1E, 0x24, 0x0E, 0x5E, 0x63, 0x58, 0xD1, 0xA2, 0x25, 0x22, 0x7C, 0x3B, 0x01, 0x21, 0x78, 0x87]
/-- Row 7 of the table of R101: SBOX[0x70 .. 0x7F]. -/
def sboxRow7 : Vector Byte 16 :=
  #v[0xD4, 0x00, 0x46, 0x57, 0x9F, 0xD3, 0x27, 0x52, 0x4C, 0x36, 0x02, 0xE7, 0xA0, 0xC4, 0xC8, 0x9E]
/-- Row 8 of the table of R101: SBOX[0x80 .. 0x8F]. -/
def sboxRow8 : Vector Byte 16 :=
  #v[0xEA, 0xBF, 0x8A, 0xD2, 0x40, 0xC7, 0x38, 0xB5, 0xA3, 0xF7, 0xF2, 0xCE, 0xF9, 0x61, 0x15, 0xA1]
/-- Row 9 of the table of R101: SBOX[0x90 .. 0x9F]. -/
def sboxRow9 : Vector Byte 16 :=
  #v[0xE0, 0xAE, 0x5D, 0xA4, 0x9B, 0x34, 0x1A, 0x55, 0xAD, 0x93, 0x32, 0x30, 0xF5, 0x8C, 0xB1, 0xE3]
/-- Row A of the table of R101: SBOX[0xA0 .. 0xAF]. -/
def sboxRowA : Vector Byte 16 :=
  #v[0x1D, 0xF6, 0xE2, 0x2E, 0x82, 0x66, 0xCA, 0x60, 0xC0, 0x29, 0x23, 0xAB, 0x0D, 0x53, 0x4E, 0x6F]
/-- Row B of the table of R101: SBOX[0xB0 .. 0xBF]. -/
def sboxRowB : Vector Byte 16 :=
  #v[0xD5, 0xDB, 0x37, 0x45, 0xDE, 0xFD, 0x8E, 0x2F, 0x03, 0xFF, 0x6A, 0x72, 0x6D, 0x6C, 0x5B, 0x51]
/-- Row C of the table of R101: SBOX[0xC0 .. 0xCF]. -/
def sboxRowC : Vector Byte 16 :=
  #v[0x8D, 0x1B, 0xAF, 0x92, 0xBB, 0xDD, 0xBC, 0x7F, 0x11, 0xD9, 0x5C, 0x41, 0x1F, 0x10, 0x5A, 0xD8]
/-- Row D of the table of R101: SBOX[0xD0 .. 0xDF]. -/
def sboxRowD : Vector Byte 16 :=
  #v[0x0A, 0xC1, 0x31, 0x88, 0xA5, 0xCD, 0x7B, 0xBD, 0x2D, 0x74, 0xD0, 0x12, 0xB8, 0xE5, 0xB4, 0xB0]
/-- Row E of the table of R101: SBOX[0xE0 .. 0xEF]. -/
def sboxRowE : Vector Byte 16 :=
  #v[0x89, 0x69, 0x97, 0x4A, 0x0C, 0x96, 0x77, 0x7E, 0x65, 0xB9, 0xF1, 0x09, 0xC5, 0x6E, 0xC6, 0x84]
/-- Row F of the table of R101: SBOX[0xF0 .. 0xFF]. -/
def sboxRowF : Vector Byte 16 :=
  #v[0x18, 0xF0, 0x7D, 0xEC, 0x3A, 0xDC, 0x4D, 0x20, 0x79, 0xEE, 0x5F, 0x3E, 0xD7, 0xCB, 0x39, 0x48]

/-- The sixteen rows of the table of R101, row h holding SBOX[16h .. 16h+15]. -/
def sboxRows : Vector (Vector Byte 16) 16 :=
  #v[sboxRow0, sboxRow1, sboxRow2, sboxRow3, sboxRow4, sboxRow5, sboxRow6, sboxRow7,
    sboxRow8, sboxRow9, sboxRowA, sboxRowB, sboxRowC, sboxRowD, sboxRowE, sboxRowF]

/-- SBOX[x]: the entry at row h, column l is SBOX[16h + l] (R101). -/
def sbox (x : Byte) : Byte :=
  (sboxRows[x.toNat / 16]'(by omega))[x.toNat % 16]'(by omega)

/-- SBOX32[x] = zext_32(SBOX[x]), the widened S-box of the gather unit (R102). -/
def sbox32 (x : Byte) : Word := (sbox x).setWidth 32

/-! ## FK (R103) and CK (R105) -/

/-- FK[0..3] (R103). -/
def fk : Block := ⟨0xA3B1BAC6, 0x56AA3350, 0x677D9197, 0xB27022DC⟩

/-- CK[0..31] (R105). -/
def ck : Vector Word 32 :=
  #v[0x00070E15, 0x1C232A31, 0x383F464D, 0x545B6269,
    0x70777E85, 0x8C939AA1, 0xA8AFB6BD, 0xC4CBD2D9,
    0xE0E7EEF5, 0xFC030A11, 0x181F262D, 0x343B4249,
    0x50575E65, 0x6C737A81, 0x888F969D, 0xA4ABB2B9,
    0xC0C7CED5, 0xDCE3EAF1, 0xF8FF060D, 0x141B2229,
    0x30373E45, 0x4C535A61, 0x686F767D, 0x848B9299,
    0xA0A7AEB5, 0xBCC3CAD1, 0xD8DFE6ED, 0xF4FB0209,
    0x10171E25, 0x2C333A41, 0x484F565D, 0x646B7279]

/-- The rule CK is built by: c(n) = (7n) mod 256 (R104). -/
def ckByte (n : Nat) : Byte := BitVec.ofNat 8 (7 * n % 256)

end Sys2Proof.Machine
end

