-- ==== Sys2Proof/Machine/Primitives.lean ====
section
/-! DEFINITION. The round primitives rotl, S, L, L', T and T' (41_round_primitives.md): total functions of one word. -/

namespace Sys2Proof.Machine

/-- rotl(x, r), the 32-bit left rotation, for 0 < r < 32 (R120). SM4RE uses r in {2, 10, 13, 18, 23, 24} only. -/
def rotl (x : Word) (r : Nat) : Word := (x <<< r) ||| (x >>> (32 - r))

/-- S(x), substituteWord: SBOX on each byte, each result in the byte position it came from (R121). -/
def substituteWord (x : Word) : Word :=
  ((sbox (byteAt 3 x)).setWidth 32 <<< 24) ||| ((sbox (byteAt 2 x)).setWidth 32 <<< 16)
    ||| ((sbox (byteAt 1 x)).setWidth 32 <<< 8) ||| (sbox (byteAt 0 x)).setWidth 32

/-- L(b), the cipher round's linear diffusion layer (R122). -/
def diffusionL (b : Word) : Word := b ^^^ rotl b 2 ^^^ rotl b 10 ^^^ rotl b 18 ^^^ rotl b 24

/-- L'(b), the key schedule's linear diffusion layer (R123). -/
def diffusionL' (b : Word) : Word := b ^^^ rotl b 13 ^^^ rotl b 23

/-- T(x) = L(S(x)) (R124). -/
def transformT (x : Word) : Word := diffusionL (substituteWord x)

/-- T'(x) = L'(S(x)) (R125). -/
def transformT' (x : Word) : Word := diffusionL' (substituteWord x)

end Sys2Proof.Machine
end

