-- ==== Sys2Proof/Machine/KeySchedule.lean ====
section
/-! DEFINITION. The key schedule engine and the meaning of KEYEXP (42_key_schedule.md). -/

namespace Sys2Proof.Machine

/-- K[i] = MK[i] xor FK[i] for i = 0..3 (R140). -/
def maskKey (mk : Block) : Block := ⟨mk.x0 ^^^ fk.x0, mk.x1 ^^^ fk.x1, mk.x2 ^^^ fk.x2, mk.x3 ^^^ fk.x3⟩

/-- One iteration of R140 on the window K[i..i+3]: t = K[i+1] xor K[i+2] xor K[i+3] xor CK[i], K[i+4] = K[i] xor T'(t). The
result is the window K[i+1..i+4]. -/
def keyRound (k : Block) (c : Word) : Block :=
  ⟨k.x1, k.x2, k.x3, k.x0 ^^^ transformT' (k.x1 ^^^ k.x2 ^^^ k.x3 ^^^ c)⟩

/-- The round keys rk[i] = K[i+4] that a list of CK words gives from a window, in increasing i (R140). -/
def keyRounds : Block → List Word → List Word
  | _, [] => []
  | k, c :: cs => (keyRound k c).x3 :: keyRounds (keyRound k c) cs

/-- Each iteration gives one round key. -/
theorem keyRounds_length (cs : List Word) : ∀ k : Block, (keyRounds k cs).length = cs.length := by
  induction cs with
  | nil => intro k; rfl
  | cons c cs ih => intro k; simp [keyRounds, ih]

/-- KS(MK[0..3]): the 32 round keys rk_enc[0..31] (R140). -/
def keySchedule (mk : Block) : Vector Word 32 :=
  ⟨(keyRounds (maskKey mk) ck.toList).toArray, by simp [keyRounds_length]⟩

/-- KEYEXP: RK <- KS(MK) with MK[n] = KeyRead(n), then KSV <- 1; no error of its own, ERR, ERRCODE and DB unchanged (R141). -/
def execKeyexp (s : State) : Host.Outcome State Fault Refusal :=
  .next ((s.setRk (keySchedule (masterKey s.keyb))).setKsv true)

end Sys2Proof.Machine
end

