-- ==== Sys2Proof/Machine/Scalar.lean ====
section
/-! DEFINITION. The scalar round engine and the meanings of ENC1 and DEC1 (43_scalar_engine.md). -/

namespace Sys2Proof.Machine

/-- One round of R160: (X0, X1, X2, X3) <- (X1, X2, X3, X0 xor T(X1 xor X2 xor X3 xor rk[r])), all four at once. -/
def roundF (x : Block) (k : Word) : Block :=
  ⟨x.x1, x.x2, x.x3, x.x0 ^^^ transformT (x.x1 ^^^ x.x2 ^^^ x.x3 ^^^ k)⟩

/-- The output order of R164: the final state in reverse word order. -/
def Block.reversed (x : Block) : Block := ⟨x.x3, x.x2, x.x1, x.x0⟩

/-- F(X[0..3], rk[0..31]): 32 rounds in increasing r, then the reversal (R160, R164). -/
def blockF (x : Block) (rk : Vector Word 32) : Block := Block.reversed (rk.toList.foldl roundF x)

/-- Transform block b in place with a round-key sequence: all four input words are read before any is written (R162). -/
def cryptBlock (b : Nat) (rk : Vector Word 32) (s : State) : State :=
  s.setDb (storeBlock s.db b (blockF (loadBlock s.db b) rk))

/-- What ENC1 and DEC1 share: the KSV check before any byte of DB is read, NO_KEY when KSV = 0 (R162, R163). A block index
above 7 is no command (log 4). -/
def scalarCommand (b : Nat) (rk : Vector Word 32) (s : State) : Host.Outcome State Fault Refusal :=
  if b < 8 then
    if s.ksv then .next (cryptBlock b rk s) else .next (raiseError .noKey s)
  else .fault .noSuchBlock

/-- ENC1 b: encrypt block b in place with rk_enc (R162). -/
def execEnc1 (b : Nat) (s : State) : Host.Outcome State Fault Refusal := scalarCommand b (rkEnc s) s

/-- DEC1 b: decrypt block b in place with rk_dec (R163). -/
def execDec1 (b : Nat) (s : State) : Host.Outcome State Fault Refusal := scalarCommand b (rkDec s) s

end Sys2Proof.Machine
end

