-- ==== Sys2Proof/Machine/VectorEngine.lean ====
section
/-! DEFINITION. The vector round engine: lanes, the S-box gather unit, the lane-wise recurrence, and the meanings of ENC8,
DEC8, SUB8, TAU8 and TAUK8 (44_vector_engine.md). The lane registers are working values of one step (10_state.md R33, R40). -/

namespace Sys2Proof.Machine

/-! ## Lanes (R180, R181) -/

/-- Lane j of a lane register: bits [32j+31 : 32j] (R180, 10_state.md R33). -/
def lane (v : LaneReg) (j : Nat) : Word := v.extractLsb' (32 * j) 32

/-- A word placed in lane j, the other lanes 0. -/
def atLane (j : Nat) (x : Word) : LaneReg := x.setWidth 256 <<< (32 * j)

/-- The lane register whose lane j is f j, for j = 0..7. -/
def ofLanes (f : Nat → Word) : LaneReg :=
  atLane 0 (f 0) ||| atLane 1 (f 1) ||| atLane 2 (f 2) ||| atLane 3 (f 3)
    ||| atLane 4 (f 4) ||| atLane 5 (f 5) ||| atLane 6 (f 6) ||| atLane 7 (f 7)

/-- bcast(k): every lane is k (R181). -/
def bcast (k : Word) : LaneReg := ofLanes fun _ => k

/-- rotl8(A, r): each lane rotated left by r (R181). -/
def rotl8 (a : LaneReg) (r : Nat) : LaneReg := ofLanes fun j => rotl (lane a j) r

/-- L8, the layer L of R122 through the lane-wise operations (R181). -/
def diffusionL8 (b : LaneReg) : LaneReg := b ^^^ rotl8 b 2 ^^^ rotl8 b 10 ^^^ rotl8 b 18 ^^^ rotl8 b 24

/-- L'8, the layer L' of R123 through the lane-wise operations (R181). -/
def diffusionL'8 (b : LaneReg) : LaneReg := b ^^^ rotl8 b 13 ^^^ rotl8 b 23

/-! ## The gather unit (R182) -/

/-- I_p: byte position p of every lane, the index vector of gather p, zero-extended in each lane (R182). -/
def gatherIndex (p : Nat) (v : LaneReg) (j : Nat) : Byte := byteAt p (lane v j)

/-- G_p: the indexed gather of SBOX32 at the eight indices of byte position p (R182). -/
def gather (p : Nat) (v : LaneReg) : LaneReg := ofLanes fun j => sbox32 (gatherIndex p v j)

/-- GATHER8(V): four gathers, reassembled by shifts and ors (R182). -/
def gather8 (v : LaneReg) : LaneReg :=
  ofLanes fun j =>
    lane (gather 0 v) j ||| (lane (gather 1 v) j <<< 8) ||| (lane (gather 2 v) j <<< 16) ||| (lane (gather 3 v) j <<< 24)

/-! ## The lane-wise recurrence (R183) -/

/-- The four lane registers LX0..LX3 (10_state.md R33). -/
structure LaneBlock where
  lx0 : LaneReg
  lx1 : LaneReg
  lx2 : LaneReg
  lx3 : LaneReg
deriving DecidableEq, Repr

/-- One round of R183: TV = LX1 xor LX2 xor LX3 xor bcast(rk[r]), NV = LX0 xor L8(GATHER8(TV)), then the shift. -/
def roundF8 (x : LaneBlock) (k : Word) : LaneBlock :=
  ⟨x.lx1, x.lx2, x.lx3, x.lx0 ^^^ diffusionL8 (gather8 (x.lx1 ^^^ x.lx2 ^^^ x.lx3 ^^^ bcast k))⟩

/-- The reversal of R183: lanes are returned in the order LX3, LX2, LX1, LX0. -/
def LaneBlock.reversed (x : LaneBlock) : LaneBlock := ⟨x.lx3, x.lx2, x.lx1, x.lx0⟩

/-- F8(LX0, LX1, LX2, LX3, rk[0..31]) (R183). -/
def blockF8 (x : LaneBlock) (rk : Vector Word 32) : LaneBlock := LaneBlock.reversed (rk.toList.foldl roundF8 x)

/-- The four words that lane j of four lane registers holds: block j (R180). -/
def LaneBlock.laneBlock (x : LaneBlock) (j : Nat) : Block := ⟨lane x.lx0 j, lane x.lx1 j, lane x.lx2 j, lane x.lx3 j⟩

/-! ## Packing and unpacking (R180) -/

/-- LXi[j] = MemRead(16j + 4i, 4) for j = 0..7 (R180). -/
def loadLanes (m : Memory) (i : Nat) : LaneReg := ofLanes fun j => memRead m (wordAddr j i)

/-- MemWrite(16j + 4i, 4, V[j]) for j = 0..7, in increasing j (R180). -/
def storeLanes (m : Memory) (i : Nat) (v : LaneReg) : Memory :=
  [0, 1, 2, 3, 4, 5, 6, 7].foldl (fun m j => memWrite m (wordAddr j i) (lane v j)) m

/-- Pack the data buffer into LX0..LX3 (R180). -/
def loadLaneBlock (m : Memory) : LaneBlock := ⟨loadLanes m 0, loadLanes m 1, loadLanes m 2, loadLanes m 3⟩

/-- Unpack four lane registers into the data buffer, word positions i = 0 .. 3 in order (R180, R184). -/
def storeLaneBlock (m : Memory) (v : LaneBlock) : Memory :=
  storeLanes (storeLanes (storeLanes (storeLanes m 0 v.lx0) 1 v.lx1) 2 v.lx2) 3 v.lx3

/-! ## ENC8 and DEC8 (R184, R185) -/

/-- What ENC8 and DEC8 share: the KSV check before DB is read, NO_KEY when KSV = 0, then all 8 blocks through F8 (R184). -/
def vectorCommand (rk : Vector Word 32) (s : State) : Host.Outcome State Fault Refusal :=
  if s.ksv then .next (s.setDb (storeLaneBlock s.db (blockF8 (loadLaneBlock s.db) rk)))
  else .next (raiseError .noKey s)

/-- ENC8: encrypt all 8 blocks in place with rk_enc (R184). -/
def execEnc8 (s : State) : Host.Outcome State Fault Refusal := vectorCommand (rkEnc s) s

/-- DEC8: decrypt all 8 blocks in place with rk_dec (R185). -/
def execDec8 (s : State) : Host.Outcome State Fault Refusal := vectorCommand (rkDec s) s

/-! ## SUB8, TAU8 and TAUK8 (R187 to R189) -/

/-- What the three diagnostic commands share: lane-word w is read, transformed and written back; KSV is not required (R187).
A word position above 3 is no command (log 4). -/
def laneWordCommand (f : LaneReg → LaneReg) (w : Nat) (s : State) : Host.Outcome State Fault Refusal :=
  if w < 4 then .next (s.setDb (storeLanes s.db w (f (loadLanes s.db w)))) else .fault .noSuchLaneWord

/-- SUB8 w: the gather unit on lane-word w (R187). -/
def execSub8 (w : Nat) (s : State) : Host.Outcome State Fault Refusal := laneWordCommand gather8 w s

/-- TAU8 w: T lane by lane on lane-word w, L8(GATHER8(V)) (R188). -/
def execTau8 (w : Nat) (s : State) : Host.Outcome State Fault Refusal :=
  laneWordCommand (fun v => diffusionL8 (gather8 v)) w s

/-- TAUK8 w: T' lane by lane on lane-word w, L'8(GATHER8(V)) (R189). -/
def execTauk8 (w : Nat) (s : State) : Host.Outcome State Fault Refusal :=
  laneWordCommand (fun v => diffusionL'8 (gather8 v)) w s

end Sys2Proof.Machine
end

