-- ==== Sys2Proof/Machine/Dispatch.lean ====
section
/-! DEFINITION. One arm per command (30_encoding.md R73, R75: "perform the rule named by R"). -/

namespace Sys2Proof.Machine

/-- Perform a decoded command. The drop while ERR = 1 stands before decoding, in the CMD write (30_encoding.md R75, log 6). -/
def exec (i : Instr) (s : State) : Host.Outcome State Fault Refusal :=
  match i with
  | .nop => Sys2Proof.Machine.execNop s
  | .keyexp => Sys2Proof.Machine.execKeyexp s
  | .enc1 b => Sys2Proof.Machine.execEnc1 b s
  | .dec1 b => Sys2Proof.Machine.execDec1 b s
  | .enc8 => Sys2Proof.Machine.execEnc8 s
  | .dec8 => Sys2Proof.Machine.execDec8 s
  | .sub8 w => Sys2Proof.Machine.execSub8 w s
  | .tau8 w => Sys2Proof.Machine.execTau8 w s
  | .tauk8 w => Sys2Proof.Machine.execTauk8 w s

end Sys2Proof.Machine
end

