-- ==== Sys2Proof/Machine/HostAccess.lean ====
section
/-! DEFINITION. Host access: register reads and writes, the command write, bus errors, reset, and the place of the window in
the host's address map (45_control_and_host_access.md, 20_memory.md, 30_encoding.md R75, 70_reset_and_hazards.md R250). -/

namespace Sys2Proof.Machine

/-! ## Reads (R201) -/

/-- ReadReg: the value a read of a mapped register returns (R201). CMD reads 0 (10_state.md R28). -/
def readReg (r : Reg) (s : State) : Word :=
  match r with
  | .cmd => 0x00000000
  | .status => statusWord s
  | .key n => keyRead s.keyb n
  | .rk i => s.rk[i.val]
  | .dbuf n => memRead s.db (dbufAddr n)

/-! ## Bus errors (20_memory.md R53, R54, R57) -/

/-- An access that is a bus error: the error is recorded, a read returns 0, nothing else changes (R57, R207). -/
def busError (k : AccessKind) (s : State) : State :=
  match k with
  | .read => (raiseError .bus s).respond 0x00000000
  | .write => raiseError .bus s

/-! ## Writes (R202 to R206) -/

/-- Key write: the four bytes of KEYn, and KSV <- 0 whatever the value (R202, 10_state.md R27). -/
def writeKey (n : Fin 4) (v : Word) (s : State) : State := (s.setKeyb (keyWrite s.keyb n v)).setKsv false

/-- Data write: MemWrite(4n, 4, v) (R203). -/
def writeDbuf (n : Fin 32) (v : Word) (s : State) : State := s.setDb (memWrite s.db (dbufAddr n) v)

/-- Status write: with v[1] = 1, ERR <- 0 and ERRCODE <- 0; the other bits are ignored (R204). -/
def writeStatus (v : Word) (s : State) : State := if v.getLsbD 1 then clearError s else s

/-- Command write: dropped while ERR = 1; else decoded, and ILLEGAL_CMD recorded or the command performed (30_encoding.md
R75). -/
def writeCmd (c : Word) (s : State) : Host.Outcome State Fault Refusal :=
  if s.err then .next s
  else
    match decode c with
    | .ok i => exec i s
    | .error _ => .next (raiseError .illegalCmd s)

/-- WriteReg, and the refusal of a write to RK, which is a bus error (R202 to R206, 20_memory.md R57). -/
def writeReg (r : Reg) (v : Word) (s : State) : Host.Outcome State Fault Refusal :=
  match r with
  | .cmd => writeCmd v s
  | .status => .next (writeStatus v s)
  | .key n => .next (writeKey n v s)
  | .rk _ => .next (busError .write s)
  | .dbuf n => .next (writeDbuf n v s)

/-! ## The host step (R207) -/

/-- The register an access reaches: none when its width is not 32, its offset is not a multiple of 4, or no register is
mapped there (R207, 20_memory.md R53, R54). -/
def Access.target (a : Access) : Option Reg := if a.size = 32 then regAt a.offset else none

/-- HostStep(kind, offset, size, data), in the order of R207: the bus checks, then the read or the write. -/
def hostStep (a : Access) (s : State) : Host.Outcome State Fault Refusal :=
  match a.target with
  | none => .next (busError a.kind s)
  | some r =>
    match a.kind with
    | .read => .next (s.respond (readReg r s))
    | .write => writeReg r a.data s

/-! ## Reset and the events of a step -/

/-- Reset: every piece of the block's state takes its reset value (70_reset_and_hazards.md R250, 10_state.md R43). What the
host has still to send, and what it has been told, is not the block's state and stays (log 3). -/
def applyReset (s : State) : State :=
  { State.reset with requests := s.requests, responses := s.responses }

/-- What one event does: one host access (R207), or a reset between two accesses (70_reset_and_hazards.md R250). -/
def handleEvent (e : HostEvent) (s : State) : Host.Outcome State Fault Refusal :=
  match e with
  | .access a => hostStep a s
  | .reset => .next (applyReset s)

/-- One step: the oldest event takes effect. With no event to come nothing happens: the block acts on host accesses and
resets only (00_scope.md R3, R5; log 1). -/
def serveNext (s : State) : Host.Outcome State Fault Refusal :=
  match s.requests with
  | [] => .next s
  | e :: rest => handleEvent e (s.setRequests rest)

/-! ## The command write as an access -/

/-- The host access that writes a command word to CMD: a 32-bit write at offset 0x000 (30_encoding.md R70, R78). -/
def cmdAccess (c : Word) : Access := ⟨.write, Reg.offset .cmd, 32, c⟩

/-- The host access that writes a register (30_encoding.md R78 `wr`). -/
def writeAccess (r : Reg) (v : Word) : Access := ⟨.write, r.offset, 32, v⟩

/-- The host access that reads a register (30_encoding.md R78 `rd`). -/
def readAccess (r : Reg) : Access := ⟨.read, r.offset, 32, 0⟩

/-! ## The window in the host's address map (20_memory.md R50, R51) -/

/-- The window offset of a host bus address, where the window at SM4RE_BASE holds it (R51). An address outside the window does
not reach SM4RE (log 8). -/
def windowOffset (addr : Nat) : Option (BitVec 9) :=
  if Config.sm4reBase ≤ addr ∧ addr < Config.sm4reBase + Config.windowBytes then
    some (BitVec.ofNat 9 (addr - Config.sm4reBase))
  else none

/-- The access that a bus transfer at an absolute address makes of the block, if it is one of its window's (R51, R207). -/
def busTransfer (k : AccessKind) (addr size : Nat) (v : Word) : Option Access :=
  (windowOffset addr).map fun o => ⟨k, o, size, v⟩

end Sys2Proof.Machine
end

