-- ==== Sys2Proof/Machine/Step.lean ====
section
/-! DEFINITION. The step of the machine: one host access or one reset (00_scope.md R3, 45_control_and_host_access.md R207,
70_reset_and_hazards.md R250). -/

namespace Sys2Proof.Machine

/-- One step (R3: "One step is one host access to the register window"). -/
def step (s : State) : Host.Outcome State Fault Refusal := serveNext s

/-- s with one more event, before those still to come: the 32-bit write to CMD of the command word whose low nbits bits are
those of w. SM4RE fetches no instructions (10_state.md R30): a command reaches it as a write to CMD (R28), so this is where
`step` takes its next instruction. Nothing else is changed, ERR included: with ERR = 1 the machine drops the word (log 2). -/
def State.withFetchWord (s : State) (nbits w : Nat) : State :=
  s.setRequests (.access (cmdAccess (tableWord nbits w)) :: s.requests)

end Sys2Proof.Machine
end

