-- ==== Sys2Proof/WellFormed.lean ====
section
/-! DEFINITION. Which `Instr` terms are commands: the operand ranges of 30_encoding.md R71, R72 and R78. -/

namespace Sys2Proof

/-- A block index is 0..7, the values of the 3-bit field BSEL (R71, R72, R78). -/
def wfBlock (b : Nat) : Bool := decide (b < 8)

/-- A word position is 0..3, the values of the 2-bit field WSEL (R71, R72, R78). -/
def wfWord (w : Nat) : Bool := decide (w < 4)

/-- A term of `Instr` is well formed when its operands are in the ranges of R72. R78: "Operands b and w outside their ranges
are an assembly error: no word is produced." -/
def Instr.wellFormed : Instr → Bool
  | .nop => true
  | .keyexp => true
  | .enc1 b => wfBlock b
  | .dec1 b => wfBlock b
  | .enc8 => true
  | .dec8 => true
  | .sub8 w => wfWord w
  | .tau8 w => wfWord w
  | .tauk8 w => wfWord w

end Sys2Proof
end

