-- ==== Sys2Proof/Machine/Assembler.lean ====
section
/-! DEFINITION. The program text of SM4RE (30_encoding.md R78, R79): lines, pseudo-instructions, their accesses, and the reading
of a line of text. -/

namespace Sys2Proof.Machine

/-! ## Lines (R78) -/

/-- A line of program text, its forms being those of R78. -/
inductive Line where
  /-- `wr REG, imm32` -/
  | wr (r : Reg) (v : Word)
  /-- `rd REG` -/
  | rd (r : Reg)
  /-- `rd REG == imm32`, a read stated to return the value -/
  | rdEq (r : Reg) (v : Word)
  /-- `NOP`, `KEYEXP`, `ENC1 b`, ..., `TAUK8 w`: a CMD write of the command's word -/
  | command (i : Instr)
deriving DecidableEq, Repr

/-- The access a line makes; none for a command whose operands are out of range, an assembly error (R78). -/
def Line.access : Line → Option Access
  | .wr r v => some (writeAccess r v)
  | .rd r => some (readAccess r)
  | .rdEq r _ => some (readAccess r)
  | .command i => if i.wellFormed then some (cmdAccess (encode i)) else none

/-- The accesses of a program, in order; none if a line is an assembly error (R78). -/
def assemble : List Line → Option (List Access)
  | [] => some []
  | l :: ls =>
    match l.access, assemble ls with
    | some a, some as => some (a :: as)
    | _, _ => none

/-- Do the values the reads returned meet the expectations that the program states (R78 `rd REG == imm32`)? -/
def meetsExpectations : List Line → List Word → Bool
  | [], [] => true
  | [], _ :: _ => false
  | .wr _ _ :: ls, rs => meetsExpectations ls rs
  | .command _ :: ls, rs => meetsExpectations ls rs
  | .rd _ :: ls, _ :: rs => meetsExpectations ls rs
  | .rdEq _ v :: ls, r :: rs => (r == v) && meetsExpectations ls rs
  | .rd _ :: _, [] => false
  | .rdEq _ _ :: _, [] => false

/-- The host issues a program's accesses after those already to come (00_scope.md R5; log 2). -/
def State.withAccesses (s : State) (as : List Access) : State := s.setRequests (s.requests ++ as.map .access)

/-! ## Pseudo-instructions (R79) -/

/-- The pseudo-instructions of R79; h is 32 hex digits, 128 bits with the first digit most significant. -/
inductive Pseudo where
  | setkey (h : BitVec 128)
  | ldblk (b : Fin 8) (h : BitVec 128)
  | stblk (b : Fin 8)
  | stblkEq (b : Fin 8) (h : BitVec 128)
  | clrerr
  | chk
deriving DecidableEq, Repr

/-- h[8k..8k+7]: hex digits 8k to 8k+7 of 32, read as one number (R79). -/
def hexWord (h : BitVec 128) (k : Fin 4) : Word := h.extractLsb' (32 * (3 - k.val)) 32

/-- Register DBUF(4b+i): word i of block b (10_state.md R23). -/
def blockReg (b : Fin 8) (i : Fin 4) : Reg := .dbuf ⟨4 * b.val + i.val, by omega⟩

/-- The expansion of a pseudo-instruction (R79). `chk` is its read of STATUS: what the host does with the value is the host's. -/
def Pseudo.expand : Pseudo → List Line
  | .setkey h => [.wr (.key 0) (hexWord h 0), .wr (.key 1) (hexWord h 1), .wr (.key 2) (hexWord h 2), .wr (.key 3) (hexWord h 3)]
  | .ldblk b h =>
    [.wr (blockReg b 0) (hexWord h 0), .wr (blockReg b 1) (hexWord h 1), .wr (blockReg b 2) (hexWord h 2),
      .wr (blockReg b 3) (hexWord h 3)]
  | .stblk b => [.rd (blockReg b 0), .rd (blockReg b 1), .rd (blockReg b 2), .rd (blockReg b 3)]
  | .stblkEq b h =>
    [.rdEq (blockReg b 0) (hexWord h 0), .rdEq (blockReg b 1) (hexWord h 1), .rdEq (blockReg b 2) (hexWord h 2),
      .rdEq (blockReg b 3) (hexWord h 3)]
  | .clrerr => [.wr .status 0x00000002]
  | .chk => [.rd .status]

/-! ## Reading a line of text (R78; log 12) -/

/-- The value of a digit in bases up to 16, both cases of a letter. -/
def digitValue (c : Char) : Nat :=
  if '0'.toNat ≤ c.toNat ∧ c.toNat ≤ '9'.toNat then c.toNat - '0'.toNat
  else if 'a'.toNat ≤ c.toNat ∧ c.toNat ≤ 'f'.toNat then c.toNat - 'a'.toNat + 10
  else if 'A'.toNat ≤ c.toNat ∧ c.toNat ≤ 'F'.toNat then c.toNat - 'A'.toNat + 10
  else 16

/-- A number's digits after those already read as acc; none at a character that is no digit of the base. -/
def readDigits (base : Nat) : Nat → List Char → Option Nat
  | acc, [] => some acc
  | acc, c :: cs => if digitValue c < base then readDigits base (base * acc + digitValue c) cs else none

/-- A number with at least one digit, below the limit. -/
def readNumber (base limit : Nat) (cs : List Char) : Option Nat :=
  if cs = [] then none
  else
    match readDigits base 0 cs with
    | some n => if n < limit then some n else none
    | none => none

/-- "An immediate is written in hexadecimal with 0x, or in decimal" (R78); it has 32 bits. -/
def readImm (cs : List Char) : Option Word :=
  match cs with
  | '0' :: 'x' :: ds => (readNumber 16 (2 ^ 32) ds).map (BitVec.ofNat 32)
  | _ => (readNumber 10 (2 ^ 32) cs).map (BitVec.ofNat 32)

/-- 32 hex digits (R79). -/
def readHex128 (cs : List Char) : Option (BitVec 128) :=
  if cs.length = 32 then (readNumber 16 (2 ^ 128) cs).map (BitVec.ofNat 128) else none

/-- A block index 0..7. R78 and R79 do not say how b is written; it is read as an immediate is, in hexadecimal or decimal (DESIGN
CHOICE, log 12). -/
def readBlockIndex (cs : List Char) : Option (Fin 8) :=
  match readImm cs with
  | some v => if v.toNat < 8 then some (Fin.ofNat 8 v.toNat) else none
  | none => none

/-- REG is one of CMD, STATUS, KEY0..KEY3, RK0..RK31 or DBUF0..DBUF31 (R78). -/
def readReg? (cs : List Char) : Option Reg :=
  if cs = ['C', 'M', 'D'] then some .cmd
  else if cs = ['S', 'T', 'A', 'T', 'U', 'S'] then some .status
  else if cs.take 3 = ['K', 'E', 'Y'] then (readNumber 10 4 (cs.drop 3)).map fun n => .key (Fin.ofNat 4 n)
  else if cs.take 2 = ['R', 'K'] then (readNumber 10 32 (cs.drop 2)).map fun n => .rk (Fin.ofNat 32 n)
  else if cs.take 4 = ['D', 'B', 'U', 'F'] then (readNumber 10 32 (cs.drop 4)).map fun n => .dbuf (Fin.ofNat 32 n)
  else none

/-- A token already read, if there is one. -/
def flushToken (t : List Char) : List (List Char) := if t = [] then [] else [t]

/-- The tokens of a line: separated by blanks and commas, up to a `;`, which starts a comment (R78). -/
def tokens : List Char → List Char → List (List Char)
  | t, [] => flushToken t
  | t, c :: cs =>
    if c = ';' then flushToken t
    else if c = ' ' ∨ c = '\t' ∨ c = ',' then flushToken t ++ tokens [] cs
    else tokens (t ++ [c]) cs

/-- A command without operands by its mnemonic (R78). -/
def plainCommand (m : List Char) : Option Instr :=
  if m = ['N', 'O', 'P'] then some .nop
  else if m = ['K', 'E', 'Y', 'E', 'X', 'P'] then some .keyexp
  else if m = ['E', 'N', 'C', '8'] then some .enc8
  else if m = ['D', 'E', 'C', '8'] then some .dec8
  else none

/-- A command with one operand by its mnemonic; the operand's range is checked at assembly (R78). -/
def indexedCommand (m : List Char) (n : Nat) : Option Instr :=
  if m = ['E', 'N', 'C', '1'] then some (.enc1 n)
  else if m = ['D', 'E', 'C', '1'] then some (.dec1 n)
  else if m = ['S', 'U', 'B', '8'] then some (.sub8 n)
  else if m = ['T', 'A', 'U', '8'] then some (.tau8 n)
  else if m = ['T', 'A', 'U', 'K', '8'] then some (.tauk8 n)
  else none

/-- One token: a command without operands, `clrerr` or `chk` (R78, R79). -/
def readLine1 (m : List Char) : Option (List Line) :=
  if m = ['c', 'l', 'r', 'e', 'r', 'r'] then some (Pseudo.expand .clrerr)
  else if m = ['c', 'h', 'k'] then some (Pseudo.expand .chk)
  else (plainCommand m).map fun i => [.command i]

/-- Two tokens: `rd REG`, `setkey h`, `stblk b`, or a command with one operand (R78, R79). R78 does not say how the operand b or w is
written; it is read as an immediate is, in hexadecimal or decimal (DESIGN CHOICE, log 12). -/
def readLine2 (m x : List Char) : Option (List Line) :=
  if m = ['r', 'd'] then (readReg? x).map fun r => [.rd r]
  else if m = ['s', 'e', 't', 'k', 'e', 'y'] then (readHex128 x).map fun h => Pseudo.expand (.setkey h)
  else if m = ['s', 't', 'b', 'l', 'k'] then (readBlockIndex x).map fun b => Pseudo.expand (.stblk b)
  else
    match readImm x with
    | some v => (indexedCommand m v.toNat).map fun i => [.command i]
    | none => none

/-- Three tokens: `wr REG, imm32` or `ldblk b, h` (R78, R79). -/
def readLine3 (m x y : List Char) : Option (List Line) :=
  if m = ['w', 'r'] then
    match readReg? x, readImm y with
    | some r, some v => some [.wr r v]
    | _, _ => none
  else if m = ['l', 'd', 'b', 'l', 'k'] then
    match readBlockIndex x, readHex128 y with
    | some b, some h => some (Pseudo.expand (.ldblk b h))
    | _, _ => none
  else none

/-- Four tokens: `rd REG == imm32` or `stblk b == h` (R78, R79). -/
def readLine4 (m x e y : List Char) : Option (List Line) :=
  if e ≠ ['=', '='] then none
  else if m = ['r', 'd'] then
    match readReg? x, readImm y with
    | some r, some v => some [.rdEq r v]
    | _, _ => none
  else if m = ['s', 't', 'b', 'l', 'k'] then
    match readBlockIndex x, readHex128 y with
    | some b, some h => some (Pseudo.expand (.stblkEq b h))
    | _, _ => none
  else none

/-- The lines that one line of program text stands for: none for a blank or comment line, several for a pseudo-instruction;
no value where the text is not of a form of R78 or R79. -/
def readLine (text : List Char) : Option (List Line) :=
  match tokens [] text with
  | [] => some []
  | [m] => readLine1 m
  | [m, x] => readLine2 m x
  | [m, x, y] => readLine3 m x y
  | [m, x, e, y] => readLine4 m x e y
  | _ => none

end Sys2Proof.Machine
end

