-- ==== Sys2Proof/Machine/Instances.lean ====
section
/-! DEFINITION. Several instances on one host bus (60_exceptions.md R235, 00_scope.md R6 NUM_INSTANCES): each has a state of
its own, and they share only the constant tables (log 9). -/

namespace Sys2Proof.Machine

/-- One step of instance k of a list of instances: its own step, the others untouched (R235: "Several instances ... are
independent"). None where there is no instance k; a stop of the instance is the outcome. -/
def stepInstance (k : Nat) (sys : List State) : Option (Host.Outcome (List State) Fault Refusal) :=
  match sys[k]? with
  | none => none
  | some s =>
    match step s with
    | .next t => some (.next (sys.set k t))
    | .fault r => some (.fault r)
    | .refused r => some (.refused r)

/-- The instances right after power-on: Config.numInstances blocks, each at its reset state (60_exceptions.md R237). -/
def resetInstances : List State := List.replicate Config.numInstances State.reset

end Sys2Proof.Machine
end

