-- ==== Sys2Proof/Safety.lean ====
section
/-! DEFINITION. What a legal state of the machine is, in the terms the claims use: the data buffer in canonical form, the
legal values of STATUS (10_state.md R26), and KSV meaning what it says (R25). -/

namespace Sys2Proof.Safety

open Sys2Proof.Machine

/-- The data buffer is in its canonical form and lists no address outside DB[0..127] (10_state.md R23). -/
abbrev CanonicalDb (s : State) : Prop := Memory.wf s.db = true

/-- The legal values of STATUS: ERR = 0 if and only if ERRCODE = 0, and ERRCODE is one of 0, 1, 2, 3 (10_state.md R26). -/
abbrev StatusLegal (s : State) : Prop :=
  (s.err = false ↔ s.errcode = 0) ∧ (s.errcode = 0 ∨ s.errcode = 1 ∨ s.errcode = 2 ∨ s.errcode = 3)

/-- KSV = 1 means that RK holds the key schedule of the current KEYB (10_state.md R25, R27). -/
abbrev KeyScheduleCurrent (s : State) : Prop := s.ksv = true → s.rk = keySchedule (masterKey s.keyb)

/-- The invariant of the machine. -/
abbrev Legal (s : State) : Prop := CanonicalDb s ∧ StatusLegal s ∧ KeyScheduleCurrent s

/-- Two states agree on everything but the responses the host has been given and the requests still to come: the block's own
state is the same (10_state.md R20). -/
abbrev SameBlock (s t : State) : Prop :=
  s.keyb = t.keyb ∧ s.rk = t.rk ∧ s.db = t.db ∧ s.ksv = t.ksv ∧ s.err = t.err ∧ s.errcode = t.errcode

/-- Nothing but the data buffer may differ: the frame of the commands that transform data (43_scalar_engine.md R162,
44_vector_engine.md R184, R187). -/
abbrev OnlyDbMayDiffer (s t : State) : Prop :=
  t.keyb = s.keyb ∧ t.rk = s.rk ∧ t.ksv = s.ksv ∧ t.err = s.err ∧ t.errcode = s.errcode ∧
    t.requests = s.requests ∧ t.responses = s.responses

/-- The commands that need a key schedule, and no others (60_exceptions.md R221 NO_KEY). -/
def needsKey : Instr → Bool
  | .enc1 _ => true
  | .dec1 _ => true
  | .enc8 => true
  | .dec8 => true
  | .nop => false
  | .keyexp => false
  | .sub8 _ => false
  | .tau8 _ => false
  | .tauk8 _ => false

/-- The offsets of the window at which no register is mapped, as 20_memory.md R52 lists them, for a multiple of 4. -/
abbrev UnmappedOffset (a : Nat) : Prop :=
  a = 0x008 ∨ a = 0x00C ∨ (0x020 ≤ a ∧ a ≤ 0x07C) ∨ (0x180 ≤ a ∧ a ≤ 0x1FC)

/-- An access that is a bus error by its width, alignment or offset (20_memory.md R53, R54), or as a write to one of RK0..RK31 at
0x080 to 0x0FC (R57). -/
abbrev BusFault (a : Access) : Prop :=
  a.size ≠ 32 ∨ a.offset.toNat % 4 ≠ 0 ∨ UnmappedOffset a.offset.toNat ∨
    (a.kind = .write ∧ 0x080 ≤ a.offset.toNat ∧ a.offset.toNat ≤ 0x0FC)

/-- A well-formed write to CMD of the word c (30_encoding.md R70). -/
abbrev CommandWrite (a : Access) (c : Word) : Prop := a.kind = .write ∧ a.offset = 0x000 ∧ a.size = 32 ∧ a.data = c

/-- What a CMD write of one of a row's words does (30_encoding.md R75): it is dropped while ERR = 1, and performs the row's command
otherwise. -/
abbrev RunsOnItsWords (pattern mask : Word) (build : Word → Instr) : Prop :=
  ∀ (s : State) (a : Access) (c : Word) (rest : List HostEvent), s.requests = .access a :: rest → CommandWrite a c →
    c &&& mask = pattern →
      step s = if s.err then .next (s.setRequests rest) else exec (build c) (s.setRequests rest)

/-- A well-formed write to STATUS with bit 1 set: what clears an error (45_control_and_host_access.md R204). -/
abbrev ClearingWrite (a : Access) : Prop :=
  a.kind = .write ∧ a.offset = 0x004 ∧ a.size = 32 ∧ a.data.getLsbD 1 = true

/-- Perform commands one after another, stopping at the first stop. -/
def performAll : List Instr → State → Host.Outcome State Fault Refusal
  | [], s => .next s
  | i :: is, s =>
    match exec i s with
    | .next t => performAll is t
    | .fault r => .fault r
    | .refused r => .refused r

/-- A run of k steps from s that ends in t, with no stop on the way. -/
def RunsTo : Nat → State → State → Prop
  | 0, s, t => s = t
  | k + 1, s, t => ∃ u, step s = .next u ∧ RunsTo k u t

end Sys2Proof.Safety
end

