-- ==== Sys2Proof/Certificates/Slice0/Obligations.lean ====
section
/-! DEFINITION. The statements about SM4RE, from the numbered rules of spec/. Each docstring names the rules it formalises. -/

open Sys2Proof Sys2Proof.Machine Sys2Proof.Safety

/-! ## Command words (30_encoding.md) -/

/-- The words that R73 writes out decode to the commands they stand for. -/
def Obligations.DecodeOfWrittenOutWords : Prop :=
  decode 0b00000000000000000000000000000000 = .ok .nop ∧
  decode 0b00000000000000000000000000000001 = .ok .keyexp ∧
  decode 0b00000000000000000000000001100010 = .ok (.enc1 3) ∧
  decode 0b00000000000000000000000011110010 = .ok (.dec1 7) ∧
  decode 0b00000000000000000000000000000011 = .ok .enc8 ∧
  decode 0b00000000000000000000000000010011 = .ok .dec8 ∧
  decode 0b00000000000000000000000100000100 = .ok (.sub8 1) ∧
  decode 0b00000000000000000000011000000100 = .ok (.tau8 2) ∧
  decode 0b00000000000000000000101100000100 = .ok (.tauk8 3)

/-- R73: a word decodes to a command exactly when it selects that command's row, the operand being the row's free field (R72);
and no two rows match the same word. -/
def Obligations.DecodeSelectsExactlyTheTableRows : Prop :=
  (∀ (c : Word) (i : Instr), decode c = .ok i ↔
    (c &&& 0xFFFFFFFF = 0x00000000 ∧ i = .nop) ∨
    (c &&& 0xFFFFFFFF = 0x00000001 ∧ i = .keyexp) ∨
    (c &&& 0xFFFFFF1F = 0x00000002 ∧ i = .enc1 (c.extractLsb' 5 3).toNat) ∨
    (c &&& 0xFFFFFF1F = 0x00000012 ∧ i = .dec1 (c.extractLsb' 5 3).toNat) ∨
    (c &&& 0xFFFFFFFF = 0x00000003 ∧ i = .enc8) ∨
    (c &&& 0xFFFFFFFF = 0x00000013 ∧ i = .dec8) ∨
    (c &&& 0xFFFFFCFF = 0x00000004 ∧ i = .sub8 (c.extractLsb' 8 2).toNat) ∨
    (c &&& 0xFFFFFCFF = 0x00000404 ∧ i = .tau8 (c.extractLsb' 8 2).toNat) ∨
    (c &&& 0xFFFFFCFF = 0x00000804 ∧ i = .tauk8 (c.extractLsb' 8 2).toNat)) ∧
  ∀ c : Word, opcodeRows.Pairwise fun r r' => ¬(r.selects c = true ∧ r'.selects c = true)

/-- Decode and encode agree in both directions: every well-formed command comes back from its word, and every word that decodes
is the word of the well-formed command it decodes to (R73, R78). -/
def Obligations.DecodeAndEncodeAgree : Prop :=
  (∀ i : Instr, i.wellFormed = true → decode (encode i) = .ok i) ∧
  ∀ (c : Word) (i : Instr), decode c = .ok i → i.wellFormed = true ∧ encode i = c

/-- R76: the illegal words are exactly those of its list, and writing one to CMD with ERR = 0 records ILLEGAL_CMD (code 1) and
changes nothing else. -/
def Obligations.IllegalWordsAreExactlyThoseListed : Prop :=
  (∀ c : Word, (∃ r, decode c = .error r) ↔
    5 ≤ (c.extractLsb' 0 4).toNat ∨
    (((c.extractLsb' 0 4).toNat = 0 ∨ (c.extractLsb' 0 4).toNat = 1 ∨ (c.extractLsb' 0 4).toNat = 3) ∧
      c.extractLsb' 5 27 ≠ 0) ∨
    (((c.extractLsb' 0 4).toNat = 0 ∨ (c.extractLsb' 0 4).toNat = 1) ∧ c.extractLsb' 4 1 = 1) ∨
    ((c.extractLsb' 0 4).toNat = 2 ∧ c.extractLsb' 8 24 ≠ 0) ∨
    ((c.extractLsb' 0 4).toNat = 4 ∧
      ((c.extractLsb' 10 2).toNat = 3 ∨ c.extractLsb' 4 4 ≠ 0 ∨ c.extractLsb' 12 20 ≠ 0))) ∧
  ∀ (s : State) (a : Access) (c : Word) (r : Reject) (rest : List HostEvent),
    s.requests = .access a :: rest → CommandWrite a c → decode c = .error r → s.err = false →
      step s = .next ((s.setRequests rest).setError true 1)

/-- A step runs the decoded command: with a CMD write of a word that decodes to i first in the requests and ERR = 0, the step is
exec of i after the request is taken; the same for a word placed by `withFetchWord` (R75). -/
def Obligations.StepRunsTheDecodedCommand : Prop :=
  (∀ (s : State) (a : Access) (c : Word) (i : Instr) (rest : List HostEvent),
    s.requests = .access a :: rest → CommandWrite a c → s.err = false → decode c = .ok i →
      step s = exec i (s.setRequests rest)) ∧
  ∀ (s : State) (c : Word) (i : Instr), s.err = false → decode c = .ok i →
    step (s.withFetchWord 32 c.toNat) = exec i s

/-- R75: a CMD write is dropped while ERR = 1; with ERR = 0 a word that matches no row records ILLEGAL_CMD, and any other is
performed. -/
def Obligations.CommandWriteIsDroppedRejectedOrPerformed : Prop :=
  ∀ (s : State) (a : Access) (c : Word) (rest : List HostEvent),
    s.requests = .access a :: rest → CommandWrite a c →
      (s.err = true → step s = .next (s.setRequests rest)) ∧
      (s.err = false → (∀ r ∈ opcodeRows, c &&& r.mask ≠ r.pattern) →
        step s = .next (raiseError .illegalCmd (s.setRequests rest))) ∧
      (s.err = false → ∀ r ∈ opcodeRows, c &&& r.mask = r.pattern → step s = exec (r.build c) (s.setRequests rest))

/-- An operand outside its range is no command (R78), and the meanings stop on it by name; no word decodes to such a term
(DESIGN CHOICE, log 4). -/
def Obligations.IllFormedOperandsStopByName : Prop :=
  ∀ s : State,
    (∀ b, 8 ≤ b → exec (.enc1 b) s = .fault .noSuchBlock ∧ exec (.dec1 b) s = .fault .noSuchBlock) ∧
    (∀ w, 4 ≤ w → exec (.sub8 w) s = .fault .noSuchLaneWord ∧ exec (.tau8 w) s = .fault .noSuchLaneWord ∧
      exec (.tauk8 w) s = .fault .noSuchLaneWord) ∧
    ∀ c i, decode c = .ok i → ∀ r, exec i s ≠ .fault r

/-- Every state has a next state: no step faults and none is refused; the engines never fault once a command is accepted
(60_exceptions.md R221). With no request to serve the state stays as it is (DESIGN CHOICE, log 1). -/
def Obligations.EveryStepHasANextState : Prop :=
  (∀ s : State, ∃ t, step s = .next t) ∧ ∀ s : State, s.requests = [] → step s = .next s

/-! ## NOP and KEYEXP -/

/-- R200: NOP leaves every state unchanged; its word is 0x00000000 exactly, and a word with OP = 0 and another bit set is
illegal. -/
def Obligations.NopChangesNothing : Prop :=
  (∀ s : State, exec .nop s = .next s) ∧
  (∀ c : Word, decode c = .ok .nop ↔ c = 0x00000000) ∧
  (∀ c : Word, c.extractLsb' 0 4 = 0 → c ≠ 0 → ∃ r, decode c = .error r) ∧
  ∀ (s : State) (a : Access) (rest : List HostEvent), s.requests = .access a :: rest → CommandWrite a 0x00000000 →
    step s = .next (s.setRequests rest)

/-- R140, R141: KEYEXP always completes; the 32 words of RK are K[4..35] of the recurrence that starts from the big-endian words of
KEYB masked with FK, KSV is 1, and nothing else changes. Its word is 0x00000001 exactly, dropped while ERR = 1; a word with OP = 1 and
another bit set is illegal. The decryption order is the reverse. -/
def Obligations.KeyexpWritesTheKeySchedule : Prop :=
  (∀ s : State, ∃ (t : State) (K : Nat → Word),
    exec .keyexp s = .next t ∧
    K 0 = keyRead s.keyb 0 ^^^ 0xA3B1BAC6 ∧ K 1 = keyRead s.keyb 1 ^^^ 0x56AA3350 ∧
    K 2 = keyRead s.keyb 2 ^^^ 0x677D9197 ∧ K 3 = keyRead s.keyb 3 ^^^ 0xB27022DC ∧
    (∀ i, (h : i < 32) → K (i + 4) = K i ^^^ transformT' (K (i + 1) ^^^ K (i + 2) ^^^ K (i + 3) ^^^ ck[i])) ∧
    (∀ i, (h : i < 32) → t.rk[i] = K (i + 4)) ∧
    (∀ i, (h : i < 32) → (rkDec t)[i] = t.rk[31 - i]) ∧
    t.ksv = true ∧ t.keyb = s.keyb ∧ t.db = s.db ∧ t.err = s.err ∧ t.errcode = s.errcode ∧
    t.requests = s.requests ∧ t.responses = s.responses) ∧
  (∀ c : Word, decode c = .ok .keyexp ↔ c = 0x00000001) ∧
  (∀ c : Word, c.extractLsb' 0 4 = 1 → c ≠ 1 → ∃ r, decode c = .error r) ∧
  RunsOnItsWords 0x00000001 0xFFFFFFFF fun _ => .keyexp

/-! ## Tables and primitives (40_constant_tables.md, 41_round_primitives.md) -/

/-- R100: SBOX is a bijection of the bytes, and one SBOX serves the cipher round (through T), the key schedule (through T') and the
gather unit (through SBOX32). -/
def Obligations.SboxIsABijection : Prop :=
  Function.Bijective sbox ∧ (∀ x : Byte, sbox32 x = (sbox x).setWidth 32) ∧
  (∀ x : Word, transformT x = diffusionL (substituteWord x) ∧ transformT' x = diffusionL' (substituteWord x)) ∧
  (∀ (x : Word) (p : Nat), p < 4 → byteAt p (substituteWord x) = sbox (byteAt p x)) ∧
  ∀ (v : LaneReg) (p j : Nat), p < 4 → j < 8 → lane (gather p v) j = sbox32 (byteAt p (lane v j))

/-- R104: CK[i] is built from the bytes c(4i) .. c(4i+3) with c(n) = 7n mod 256. -/
def Obligations.CkFollowsItsConstruction : Prop :=
  ∀ i, (h : i < 32) →
    ck[i] = be32 (BitVec.ofNat 8 (7 * (4 * i) % 256)) (BitVec.ofNat 8 (7 * (4 * i + 1) % 256))
      (BitVec.ofNat 8 (7 * (4 * i + 2) % 256)) (BitVec.ofNat 8 (7 * (4 * i + 3) % 256))

/-- R120: rotl(x, r) is the left rotation for 0 < r < 32: bit i goes to bit (i + r) mod 32. -/
def Obligations.RotlMovesEachBitLeft : Prop :=
  ∀ (x : Word) (r : Nat), 0 < r → r < 32 →
    rotl x r = (x <<< r) ||| (x >>> (32 - r)) ∧
    (∀ i, i < 32 → (rotl x r).getLsbD ((i + r) % 32) = x.getLsbD i) ∧ rotl 0 r = 0 ∧ rotl 0xFFFFFFFF r = 0xFFFFFFFF

/-- R121: S applies SBOX to each byte, keeps each in its position, and is a bijection on words. -/
def Obligations.SubstituteWordIsABytewiseBijection : Prop :=
  (∀ x : Word, substituteWord x =
    ((sbox (x.extractLsb' 24 8)).setWidth 32 <<< 24) ||| ((sbox (x.extractLsb' 16 8)).setWidth 32 <<< 16) |||
      ((sbox (x.extractLsb' 8 8)).setWidth 32 <<< 8) ||| (sbox (x.extractLsb' 0 8)).setWidth 32) ∧
  (∀ (x : Word) (p : Nat), p < 4 → byteAt p (substituteWord x) = sbox (byteAt p x)) ∧
  Function.Bijective substituteWord ∧ substituteWord 0x00000000 = 0xD6D6D6D6 ∧ substituteWord 0xFFFFFFFF = 0x48484848

/-- R122, R123: L xors b with its rotations by 2, 10, 18 and 24, L' with those by 13 and 23; both fix the words 0 and 0xFFFFFFFF.
R127: L and L' are linear and commute with rotation by a multiple of 8, and S, L, L', T and T' map a word of four equal bytes to
such a word. With the rules' examples. -/
def Obligations.DiffusionLayersAreLinearAndByteSymmetric : Prop :=
  (∀ b : Word, diffusionL b = b ^^^ rotl b 2 ^^^ rotl b 10 ^^^ rotl b 18 ^^^ rotl b 24) ∧
  (∀ b : Word, diffusionL' b = b ^^^ rotl b 13 ^^^ rotl b 23) ∧
  (diffusionL 0 = 0 ∧ diffusionL 0xFFFFFFFF = 0xFFFFFFFF ∧ diffusionL 0x00000001 = 0x01040405) ∧
  (diffusionL' 0 = 0 ∧ diffusionL' 0xFFFFFFFF = 0xFFFFFFFF ∧ diffusionL' 0x00000001 = 0x00802001) ∧
  (∀ a b : Word, diffusionL (a ^^^ b) = diffusionL a ^^^ diffusionL b) ∧
  (∀ a b : Word, diffusionL' (a ^^^ b) = diffusionL' a ^^^ diffusionL' b) ∧
  (∀ (a : Word) (k : Nat), 0 < k → k < 4 → diffusionL (rotl a (8 * k)) = rotl (diffusionL a) (8 * k) ∧
    diffusionL' (rotl a (8 * k)) = rotl (diffusionL' a) (8 * k)) ∧
  (∀ v : Byte, ∃ u l l' t t' : Byte,
    substituteWord (be32 v v v v) = be32 u u u u ∧
    diffusionL (be32 v v v v) = be32 l l l l ∧ diffusionL' (be32 v v v v) = be32 l' l' l' l' ∧
    transformT (be32 v v v v) = be32 t t t t ∧ transformT' (be32 v v v v) = be32 t' t' t' t') ∧
  transformT 0x80808080 = 0xABABABAB ∧ transformT' 0x7F7F7F7F = 0x02020202

/-! ## The scalar round engine (43_scalar_engine.md) -/

/-- R160, R164: F runs the recurrence X(r+4) = X(r) xor T(X(r+1) xor X(r+2) xor X(r+3) xor rk[r]) for r = 0..31 and returns
(X35, X34, X33, X32). -/
def Obligations.BlockFunctionRunsTheRecurrence : Prop :=
  ∀ (x : Block) (rk : Vector Word 32), ∃ X : Nat → Word,
    X 0 = x.x0 ∧ X 1 = x.x1 ∧ X 2 = x.x2 ∧ X 3 = x.x3 ∧
    (∀ r, (h : r < 32) → X (r + 4) = X r ^^^ transformT (X (r + 1) ^^^ X (r + 2) ^^^ X (r + 3) ^^^ rk[r])) ∧
    blockF x rk = ⟨X 35, X 34, X 33, X 32⟩

/-- R161: F with the reversed round keys undoes F, for every block and every round-key sequence. -/
def Obligations.DecryptionUndoesEncryption : Prop :=
  ∀ (x : Block) (rk : Vector Word 32), blockF (blockF x rk) (Vector.ofFn fun i : Fin 32 => rk[31 - i.val]) = x

/-- R162: ENC1 b. With KSV = 1 it completes, block b becomes F of block b under RK in order, every byte outside the block and every
other field is unchanged; with KSV = 0 it records NO_KEY and changes nothing else. Its words are those of its row, dropped while
ERR = 1. -/
def Obligations.Enc1TransformsItsBlock : Prop :=
  (∀ (s : State) (b : Nat), b < 8 → s.ksv = true → ∃ t, exec (.enc1 b) s = .next t ∧ OnlyDbMayDiffer s t ∧
    (∀ a, a < wordAddr b 0 ∨ wordAddr b 0 + 16 ≤ a → t.db.read a = s.db.read a) ∧
    (CanonicalDb s → loadBlock t.db b = blockF (loadBlock s.db b) s.rk)) ∧
  (∀ (s : State) (b : Nat), b < 8 → s.ksv = false →
    exec (.enc1 b) s = .next (if s.err then s else s.setError true 2)) ∧
  RunsOnItsWords 0x00000002 0xFFFFFF1F fun c => .enc1 (c.extractLsb' 5 3).toNat

/-- R163: DEC1 b, as ENC1 b with rk[r] = RK[31 - r]; right after ENC1 b it restores the state. -/
def Obligations.Dec1TransformsItsBlock : Prop :=
  (∀ (s : State) (b : Nat), b < 8 → s.ksv = true → ∃ t, exec (.dec1 b) s = .next t ∧ OnlyDbMayDiffer s t ∧
    (∀ a, a < wordAddr b 0 ∨ wordAddr b 0 + 16 ≤ a → t.db.read a = s.db.read a) ∧
    (CanonicalDb s →
      loadBlock t.db b = blockF (loadBlock s.db b) (Vector.ofFn fun r : Fin 32 => s.rk[31 - r.val]))) ∧
  (∀ (s : State) (b : Nat), b < 8 → s.ksv = false →
    exec (.dec1 b) s = .next (if s.err then s else s.setError true 2)) ∧
  (∀ (s : State) (b : Nat), b < 8 → CanonicalDb s → s.ksv = true → performAll [.enc1 b, .dec1 b] s = .next s) ∧
  RunsOnItsWords 0x00000012 0xFFFFFF1F fun c => .dec1 (c.extractLsb' 5 3).toNat

/-! ## The vector round engine (44_vector_engine.md) -/

/-- R180: lane j of a lane register is its bits [32j+31 : 32j]; packing puts word i of block j in lane j of LXi, and unpacking is the
inverse. -/
def Obligations.LanesArePackedByBlock : Prop :=
  (∀ (v : LaneReg) (j k : Nat), j < 8 → k < 32 → (lane v j).getLsbD k = v.getLsbD (32 * j + k)) ∧
  (∀ (m : Memory) (j : Nat), j < 8 →
    lane (loadLaneBlock m).lx0 j = memRead m (16 * j) ∧ lane (loadLaneBlock m).lx1 j = memRead m (16 * j + 4) ∧
    lane (loadLaneBlock m).lx2 j = memRead m (16 * j + 8) ∧ lane (loadLaneBlock m).lx3 j = memRead m (16 * j + 12)) ∧
  (∀ (m : Memory) (v : LaneBlock) (j : Nat), m.wf = true → j < 8 →
    memRead (storeLaneBlock m v) (16 * j) = lane v.lx0 j ∧ memRead (storeLaneBlock m v) (16 * j + 4) = lane v.lx1 j ∧
    memRead (storeLaneBlock m v) (16 * j + 8) = lane v.lx2 j ∧ memRead (storeLaneBlock m v) (16 * j + 12) = lane v.lx3 j) ∧
  ∀ m : Memory, m.wf = true → storeLaneBlock m (loadLaneBlock m) = m

/-- R181: the lane-wise operations act lane by lane, and L8 and L'8 are L and L' on each lane. -/
def Obligations.LaneOperationsActLaneByLane : Prop :=
  ∀ (a b : LaneReg) (k : Word) (r j : Nat), j < 8 →
    lane (a ^^^ b) j = lane a j ^^^ lane b j ∧ lane (rotl8 a r) j = rotl (lane a j) r ∧ lane (bcast k) j = k ∧
    lane (diffusionL8 a) j = diffusionL (lane a j) ∧ lane (diffusionL'8 a) j = diffusionL' (lane a j)

/-- R182: the gather unit's reassembly of four gathers of SBOX32, one per byte position, is S on each lane. -/
def Obligations.GatherUnitSubstitutesEachLane : Prop :=
  ∀ (v : LaneReg) (j : Nat), j < 8 →
    lane (gather8 v) j =
      sbox32 ((lane v j).extractLsb' 0 8) ||| (sbox32 ((lane v j).extractLsb' 8 8) <<< 8) |||
        (sbox32 ((lane v j).extractLsb' 16 8) <<< 16) ||| (sbox32 ((lane v j).extractLsb' 24 8) <<< 24) ∧
    lane (gather8 v) j = substituteWord (lane v j)

/-- R186: for every lane j, lane j of F8's result is F applied to lane j alone. -/
def Obligations.VectorEngineEqualsScalarEngine : Prop :=
  ∀ (x : LaneBlock) (rk : Vector Word 32) (j : Nat), j < 8 → (blockF8 x rk).laneBlock j = blockF (x.laneBlock j) rk

/-- R184: ENC8. With KSV = 1 it completes, every block becomes F of itself under RK in order and nothing but the 128 bytes of DB
changes; that is ENC1 of the eight blocks one after another, in any order. With KSV = 0 it records NO_KEY and changes nothing else.
Its word is 0x00000003 exactly, dropped while ERR = 1. -/
def Obligations.Enc8TransformsAllBlocks : Prop :=
  (∀ s : State, s.ksv = true → ∃ t, exec .enc8 s = .next t ∧ OnlyDbMayDiffer s t ∧
    (∀ a, 128 ≤ a → t.db.read a = s.db.read a) ∧
    (CanonicalDb s → ∀ j, j < 8 → loadBlock t.db j = blockF (loadBlock s.db j) s.rk)) ∧
  (∀ (s : State) (order : List Nat), CanonicalDb s → s.ksv = true → order.Perm [0, 1, 2, 3, 4, 5, 6, 7] →
    exec .enc8 s = performAll (order.map Instr.enc1) s) ∧
  (∀ s : State, s.ksv = false → exec .enc8 s = .next (if s.err then s else s.setError true 2)) ∧
  (∀ c : Word, decode c = .ok .enc8 ↔ c = 0x00000003) ∧ RunsOnItsWords 0x00000003 0xFFFFFFFF fun _ => .enc8

/-- R185: DEC8, as ENC8 with rk[r] = RK[31 - r]; it is DEC1 of the eight blocks, and right after ENC8 it restores the state. Its word
is 0x00000013 exactly, dropped while ERR = 1. -/
def Obligations.Dec8TransformsAllBlocks : Prop :=
  (∀ s : State, s.ksv = true → ∃ t, exec .dec8 s = .next t ∧ OnlyDbMayDiffer s t ∧
    (∀ a, 128 ≤ a → t.db.read a = s.db.read a) ∧
    (CanonicalDb s → ∀ j, j < 8 →
      loadBlock t.db j = blockF (loadBlock s.db j) (Vector.ofFn fun r : Fin 32 => s.rk[31 - r.val]))) ∧
  (∀ (s : State) (order : List Nat), CanonicalDb s → s.ksv = true → order.Perm [0, 1, 2, 3, 4, 5, 6, 7] →
    exec .dec8 s = performAll (order.map Instr.dec1) s) ∧
  (∀ s : State, CanonicalDb s → s.ksv = true → performAll [.enc8, .dec8] s = .next s) ∧
  (∀ s : State, s.ksv = false → exec .dec8 s = .next (if s.err then s else s.setError true 2)) ∧
  (∀ c : Word, decode c = .ok .dec8 ↔ c = 0x00000013) ∧ RunsOnItsWords 0x00000013 0xFFFFFFFF fun _ => .dec8

/-- Encryption and decryption commands undo each other in both orders, on every block and every round-key file (R161): ENC1 b after
DEC1 b, and ENC8 after DEC8, restore the state too. -/
def Obligations.EncryptCommandUndoesDecryptCommand : Prop :=
  ∀ s : State, CanonicalDb s → s.ksv = true →
    (∀ b, b < 8 → performAll [.dec1 b, .enc1 b] s = .next s) ∧ performAll [.dec8, .enc8] s = .next s

/-- 00_scope.md R4: each block is transformed independently of every other block. What a command leaves in block j is the same in
two states that agree on RK, KSV and block j. -/
def Obligations.BlocksAreTransformedIndependently : Prop :=
  ∀ (s s' t t' : State) (j : Nat) (i : Instr), j < 8 → CanonicalDb s → CanonicalDb s' → s.ksv = s'.ksv → s.rk = s'.rk →
    loadBlock s.db j = loadBlock s'.db j → exec i s = .next t → exec i s' = .next t' →
    loadBlock t.db j = loadBlock t'.db j

/-- R187: SUB8 w completes in every state, whatever KSV: each of the 8 words at position w becomes S of itself, every other byte and
every other field is unchanged. Its words are those of its row, dropped while ERR = 1. -/
def Obligations.Sub8SubstitutesItsLaneWord : Prop :=
  (∀ (s : State) (w : Nat), w < 4 → ∃ t, exec (.sub8 w) s = .next t ∧ OnlyDbMayDiffer s t ∧
    (∀ a, (∀ j, j < 8 → a < wordAddr j w ∨ wordAddr j w + 4 ≤ a) → t.db.read a = s.db.read a) ∧
    (CanonicalDb s → ∀ j, j < 8 → memRead t.db (wordAddr j w) = substituteWord (memRead s.db (wordAddr j w)))) ∧
  RunsOnItsWords 0x00000004 0xFFFFFCFF fun c => .sub8 (c.extractLsb' 8 2).toNat

/-- R188: TAU8 w, as SUB8 w with T. -/
def Obligations.Tau8TransformsItsLaneWord : Prop :=
  (∀ (s : State) (w : Nat), w < 4 → ∃ t, exec (.tau8 w) s = .next t ∧ OnlyDbMayDiffer s t ∧
    (∀ a, (∀ j, j < 8 → a < wordAddr j w ∨ wordAddr j w + 4 ≤ a) → t.db.read a = s.db.read a) ∧
    (CanonicalDb s → ∀ j, j < 8 → memRead t.db (wordAddr j w) = transformT (memRead s.db (wordAddr j w)))) ∧
  RunsOnItsWords 0x00000404 0xFFFFFCFF fun c => .tau8 (c.extractLsb' 8 2).toNat

/-- R189: TAUK8 w, as SUB8 w with T'. -/
def Obligations.Tauk8TransformsItsLaneWord : Prop :=
  (∀ (s : State) (w : Nat), w < 4 → ∃ t, exec (.tauk8 w) s = .next t ∧ OnlyDbMayDiffer s t ∧
    (∀ a, (∀ j, j < 8 → a < wordAddr j w ∨ wordAddr j w + 4 ≤ a) → t.db.read a = s.db.read a) ∧
    (CanonicalDb s → ∀ j, j < 8 → memRead t.db (wordAddr j w) = transformT' (memRead s.db (wordAddr j w)))) ∧
  RunsOnItsWords 0x00000804 0xFFFFFCFF fun c => .tauk8 (c.extractLsb' 8 2).toNat

/-! ## Host access (20_memory.md, 45_control_and_host_access.md) -/

/-- R52: the register map. Each register is at its offset, no other offset reaches it, and an offset that is not a multiple of 4 or
is listed as unmapped reaches no register. -/
def Obligations.RegisterMapIsAsListed : Prop :=
  (∀ (o : BitVec 9) (r : Reg), regAt o = some r ↔
    match r with
    | .cmd => o = 0x000
    | .status => o = 0x004
    | .key n => o.toNat = 0x010 + 4 * n.val
    | .rk i => o.toNat = 0x080 + 4 * i.val
    | .dbuf n => o.toNat = 0x100 + 4 * n.val) ∧
  (∀ r : Reg, regAt r.offset = some r) ∧
  ∀ o : BitVec 9, regAt o = none ↔ o.toNat % 4 ≠ 0 ∨ UnmappedOffset o.toNat

/-- R25: the fields of STATUS as it reads: KSV in bit 0, ERR in bit 1, ERRCODE in bits 7:4, the reserved bits 0. -/
def Obligations.StatusReadsItsFields : Prop :=
  ∀ s : State, (statusWord s).getLsbD 0 = s.ksv ∧ (statusWord s).getLsbD 1 = s.err ∧
    (statusWord s).extractLsb' 2 2 = 0 ∧ (statusWord s).extractLsb' 4 4 = s.errcode ∧ (statusWord s).extractLsb' 8 24 = 0

/-- R201: a 32-bit read at a register's offset returns that register's value and changes nothing, whatever ERR is. -/
def Obligations.ReadReturnsTheRegister : Prop :=
  ∀ (s : State) (r : Reg) (d : Word) (rest : List HostEvent),
    s.requests = .access ⟨.read, r.offset, 32, d⟩ :: rest →
      step s = .next ((s.setRequests rest).respond
        (match r with
          | .cmd => 0x00000000
          | .status => (s.errcode.setWidth 32 <<< 4) ||| ((if s.err then (1 : Word) else 0) <<< 1) ||| (if s.ksv then (1 : Word) else 0)
          | .key n => be32 s.keyb[4 * n.val] s.keyb[4 * n.val + 1] s.keyb[4 * n.val + 2] s.keyb[4 * n.val + 3]
          | .rk i => s.rk[i.val]
          | .dbuf n => be32 (s.db.read (4 * n.val)) (s.db.read (4 * n.val + 1)) (s.db.read (4 * n.val + 2))
              (s.db.read (4 * n.val + 3))))

/-- R202: a write of v to KEYn sets its four bytes of KEYB big-endian and clears KSV, whatever v and ERR are; nothing else
changes. -/
def Obligations.KeyWriteSetsItsWordAndClearsKsv : Prop :=
  ∀ (s : State) (n : Fin 4) (v : Word) (rest : List HostEvent),
    s.requests = .access ⟨.write, BitVec.ofNat 9 (0x010 + 4 * n.val), 32, v⟩ :: rest →
      ∃ t, step s = .next t ∧ t.ksv = false ∧
        t.keyb[4 * n.val] = v.extractLsb' 24 8 ∧ t.keyb[4 * n.val + 1] = v.extractLsb' 16 8 ∧
        t.keyb[4 * n.val + 2] = v.extractLsb' 8 8 ∧ t.keyb[4 * n.val + 3] = v.extractLsb' 0 8 ∧
        (∀ a, (h : a < 16) → a / 4 ≠ n.val → t.keyb[a] = s.keyb[a]) ∧
        t.rk = s.rk ∧ t.db = s.db ∧ t.err = s.err ∧ t.errcode = s.errcode ∧ t.requests = rest ∧ t.responses = s.responses

/-- R203: a write of v to DBUFn sets its four bytes of DB big-endian, whatever ERR is; every other byte and field is unchanged, KSV
included. -/
def Obligations.DataWriteSetsItsWord : Prop :=
  ∀ (s : State) (n : Fin 32) (v : Word) (rest : List HostEvent),
    s.requests = .access ⟨.write, BitVec.ofNat 9 (0x100 + 4 * n.val), 32, v⟩ :: rest →
      ∃ t, step s = .next t ∧ OnlyDbMayDiffer (s.setRequests rest) t ∧
        (∀ a, a < dbufAddr n ∨ dbufAddr n + 4 ≤ a → t.db.read a = s.db.read a) ∧
        (CanonicalDb s → t.db.read (4 * n.val) = v.extractLsb' 24 8 ∧ t.db.read (4 * n.val + 1) = v.extractLsb' 16 8 ∧
          t.db.read (4 * n.val + 2) = v.extractLsb' 8 8 ∧ t.db.read (4 * n.val + 3) = v.extractLsb' 0 8)

/-- R204: a write of v to STATUS clears ERR and ERRCODE when v[1] = 1 and does nothing otherwise; no other bit of v acts. -/
def Obligations.StatusWriteClearsTheError : Prop :=
  ∀ (s : State) (v : Word) (rest : List HostEvent), s.requests = .access ⟨.write, 0x004, 32, v⟩ :: rest →
    step s = .next (if v.getLsbD 1 then (s.setRequests rest).setError false 0 else s.setRequests rest)

/-- R206: a write to RKi is refused: RK is unchanged and error BUS is recorded (with ERR = 0; else nothing changes). A read of RKi
returns the word. -/
def Obligations.RoundKeyWriteIsRefused : Prop :=
  ∀ (s : State) (i : Fin 32) (v : Word) (rest : List HostEvent),
    (s.requests = .access ⟨.write, BitVec.ofNat 9 (0x080 + 4 * i.val), 32, v⟩ :: rest →
      step s = .next (if s.err then s.setRequests rest else (s.setRequests rest).setError true 3)) ∧
    (s.requests = .access ⟨.read, BitVec.ofNat 9 (0x080 + 4 * i.val), 32, v⟩ :: rest →
      step s = .next ((s.setRequests rest).respond s.rk[i.val]))

/-- R53, R54, R57: an access of a width other than 32, at an offset that is not a multiple of 4, at an unmapped offset, or a write to
RK, changes nothing but the error record, and a read among them returns 0. A read of CMD is no error. -/
def Obligations.BadAccessesAreBusErrors : Prop :=
  (∀ (s : State) (a : Access) (rest : List HostEvent), s.requests = .access a :: rest → BusFault a →
    ∃ t, step s = .next t ∧ SameBlock t (if s.err then s else s.setError true 3) ∧ t.requests = rest ∧
      t.responses = (if a.kind = .read then s.responses ++ [0x00000000] else s.responses)) ∧
  ∀ (s : State) (d : Word) (rest : List HostEvent), s.requests = .access ⟨.read, 0x000, 32, d⟩ :: rest →
    step s = .next ((s.setRequests rest).respond 0x00000000)

/-- 20_memory.md R55, R61: a register read after a write returns the value written, and every other KEY and DBUF register reads as
before the write. -/
def Obligations.ReadAfterWriteReturnsTheValue : Prop :=
  ∀ (s t : State) (r : Reg) (v : Word) (rest : List HostEvent), CanonicalDb s → ((∃ n, r = .key n) ∨ ∃ n, r = .dbuf n) →
    s.requests = .access ⟨.write, r.offset, 32, v⟩ :: rest → step s = .next t →
      readReg r t = v ∧ ∀ r', r' ≠ r → r' ≠ .status → readReg r' t = readReg r' s

/-- 20_memory.md R51: wherever the window's base is, the bus addresses from the base on reach the 512 offsets in order, and no other
address reaches the block (the last is the model's reading, log 8). -/
def Obligations.WindowIsRelativeToItsBase : Prop :=
  (∀ o : BitVec 9, windowOffset (Config.sm4reBase + o.toNat) = some o) ∧
  ∀ (addr : Nat) (o : BitVec 9), windowOffset addr = some o → addr = Config.sm4reBase + o.toNat

/-! ## Errors (60_exceptions.md) -/

/-- R223: recording an error with ERR = 0 sets ERR and ERRCODE to the code of R221; with ERR = 1 nothing changes; nothing else is
saved or changed. -/
def Obligations.RaisingAnErrorKeepsTheFirst : Prop :=
  ∀ (s : State) (c : ErrorCause),
    (s.err = true → raiseError c s = s) ∧
    (s.err = false → (raiseError c s).err = true ∧
      (raiseError c s).errcode = (match c with | .illegalCmd => 1 | .noKey => 2 | .bus => 3)) ∧
    (raiseError c s).keyb = s.keyb ∧ (raiseError c s).rk = s.rk ∧ (raiseError c s).db = s.db ∧
    (raiseError c s).ksv = s.ksv ∧ (raiseError c s).requests = s.requests ∧ (raiseError c s).responses = s.responses

/-- R225: while ERR = 1 a bus error and a CMD write change nothing of the block. With ERR = 0, the access records BUS if it is a bus fault, else ILLEGAL_CMD if it is a CMD write of an illegal word, else
NO_KEY if it is a CMD write of a command that needs a key with KSV = 0, else no error. -/
def Obligations.RecordedErrorFollowsThePriority : Prop :=
  (∀ (s t : State) (a : Access) (c : Word) (rest : List HostEvent), s.requests = .access a :: rest → s.err = true →
    BusFault a ∨ CommandWrite a c → step s = .next t → SameBlock t s) ∧
  ∀ (s t : State) (a : Access) (rest : List HostEvent), s.requests = .access a :: rest → s.err = false →
    s.errcode = 0 → step s = .next t →
      (BusFault a → t.err = true ∧ t.errcode = 3) ∧
      (∀ c, ¬BusFault a → CommandWrite a c → (∃ r, decode c = .error r) → t.err = true ∧ t.errcode = 1) ∧
      (∀ c i, ¬BusFault a → CommandWrite a c → decode c = .ok i → needsKey i = true → s.ksv = false →
        t.err = true ∧ t.errcode = 2) ∧
      (∀ c i, ¬BusFault a → CommandWrite a c → decode c = .ok i → (needsKey i = true → s.ksv = true) →
        t.err = false ∧ t.errcode = 0) ∧
      (¬BusFault a → (∀ c, ¬CommandWrite a c) → t.err = false ∧ t.errcode = 0)

/-- R222: a step that raises an error serves an access, changes no state except ERR and ERRCODE, and takes that one request; where the
access is a read, which is then a bus error, it returns 0, and a write returns nothing. -/
def Obligations.ErrorsArePrecise : Prop :=
  ∀ s t : State, s.err = false → step s = .next t → t.err = true →
    t.keyb = s.keyb ∧ t.rk = s.rk ∧ t.db = s.db ∧ t.ksv = s.ksv ∧ (t.errcode = 1 ∨ t.errcode = 2 ∨ t.errcode = 3) ∧
    ∃ a, s.requests = .access a :: t.requests ∧ (a.kind = .read → BusFault a ∧ t.responses = s.responses ++ [0x00000000]) ∧
      (a.kind = .write → t.responses = s.responses)

/-- R224: while ERR = 1 a CMD write changes nothing, and a bus error changes nothing (a read among them returns 0); writes of KEYn,
DBUFn and STATUS and all reads do what they do with ERR = 0. -/
def Obligations.CommandsAreDroppedWhileErrorStands : Prop :=
  ∀ (s : State) (a : Access) (rest : List HostEvent), s.err = true → s.requests = .access a :: rest →
    (∀ c, CommandWrite a c → step s = .next (s.setRequests rest)) ∧
    (BusFault a → a.kind = .write → step s = .next (s.setRequests rest)) ∧
    (BusFault a → a.kind = .read → step s = .next ((s.setRequests rest).respond 0)) ∧
    (∀ r, a.target = some r → a.kind = .read → step s = .next ((s.setRequests rest).respond (readReg r s))) ∧
    (∀ n, a.target = some (.key n) → a.kind = .write → step s = .next (writeKey n a.data (s.setRequests rest))) ∧
    (∀ n, a.target = some (.dbuf n) → a.kind = .write → step s = .next (writeDbuf n a.data (s.setRequests rest))) ∧
    (a.target = some .status → a.kind = .write → step s = .next (writeStatus a.data (s.setRequests rest)))

/-- R226: an error is cleared only by a write to STATUS with bit 1 set or by a reset, and that write sets ERR and ERRCODE to 0 and
restores nothing else. -/
def Obligations.OnlyStatusWriteOrResetClearsAnError : Prop :=
  (∀ s t : State, s.err = true → step s = .next t → t.err = true ∧ t.errcode = s.errcode ∨
    ∃ rest, s.requests = .reset :: rest ∨ ∃ a, s.requests = .access a :: rest ∧ ClearingWrite a) ∧
  ∀ (s : State) (a : Access) (rest : List HostEvent), s.requests = .access a :: rest → ClearingWrite a →
    step s = .next ((s.setRequests rest).setError false 0)

/-- R224, R226, 70_reset_and_hazards.md R260: along any run in which no reset and no clearing write is served, a recorded error
stays, with its code; no command runs: at every step of the run a CMD write only takes its request, RK never changes, and KSV is
never set. -/
def Obligations.ErrorStandsUntilItIsCleared : Prop :=
  ∀ (k : Nat) (s t : State), RunsTo k s t → s.err = true →
    (∀ e ∈ s.requests.take k, e ≠ .reset ∧ ∀ a, e = .access a → ¬ClearingWrite a) →
      t.err = true ∧ t.errcode = s.errcode ∧ t.rk = s.rk ∧ (t.ksv = true → s.ksv = true) ∧
      ∀ (j : Nat) (u : State) (a : Access) (c : Word) (rest : List HostEvent), j < k → RunsTo j s u →
        u.requests = .access a :: rest → CommandWrite a c → step u = .next (u.setRequests rest)

/-! ## Who writes what -/

/-- 10_state.md R22: only KEYEXP writes RK (and reset). -/
def Obligations.OnlyKeyexpWritesRoundKeys : Prop :=
  ∀ s t : State, step s = .next t → t.rk ≠ s.rk →
    ∃ rest, s.requests = .reset :: rest ∨
      ∃ a, s.requests = .access a :: rest ∧ CommandWrite a 0x00000001 ∧ s.err = false

/-- 10_state.md R27: KSV is set only by KEYEXP, and cleared by every write to KEY0..KEY3 and by reset; no other event changes it.
ENC1, DEC1, ENC8 and DEC8 require KSV = 1. -/
def Obligations.KsvIsSetByKeyexpAndClearedByKeyWrites : Prop :=
  (∀ s t : State, step s = .next t → s.ksv = false → t.ksv = true →
    ∃ rest a, s.requests = .access a :: rest ∧ CommandWrite a 0x00000001 ∧ s.err = false) ∧
  (∀ s t : State, step s = .next t → s.ksv = true → t.ksv = false →
    ∃ rest, s.requests = .reset :: rest ∨ ∃ a, s.requests = .access a :: rest ∧ a.kind = .write ∧ a.size = 32 ∧
      ∃ n : Fin 4, a.offset = BitVec.ofNat 9 (0x010 + 4 * n.val)) ∧
  (∀ (s t : State) (rest : List HostEvent) (a : Access) (n : Fin 4), s.requests = .access a :: rest → a.kind = .write →
    a.size = 32 → a.offset = BitVec.ofNat 9 (0x010 + 4 * n.val) → step s = .next t → t.ksv = false) ∧
  (∀ (s t : State) (rest : List HostEvent) (a : Access), s.requests = .access a :: rest → CommandWrite a 0x00000001 →
    s.err = false → step s = .next t → t.ksv = true) ∧
  (∀ (s t : State) (rest : List HostEvent), s.requests = .reset :: rest → step s = .next t → t.ksv = false) ∧
  ∀ (s : State) (i : Instr), needsKey i = true → i.wellFormed = true → s.ksv = false → s.err = false →
    exec i s = .next (s.setError true 2)

/-- 10_state.md R20: KEYB is written only by host writes to KEY0..KEY3, and DB only by host writes to DBUF0..DBUF31 and by ENC1, DEC1,
ENC8, DEC8, SUB8, TAU8 and TAUK8 (and both by reset). -/
def Obligations.KeyAndDataAreWrittenOnlyByTheirWriters : Prop :=
  (∀ s t : State, step s = .next t → t.keyb ≠ s.keyb →
    ∃ rest, s.requests = .reset :: rest ∨ ∃ a, s.requests = .access a :: rest ∧ a.kind = .write ∧ a.size = 32 ∧
      ∃ n : Fin 4, a.offset = BitVec.ofNat 9 (0x010 + 4 * n.val)) ∧
  ∀ s t : State, step s = .next t → t.db ≠ s.db →
    ∃ rest, s.requests = .reset :: rest ∨ ∃ a, s.requests = .access a :: rest ∧ a.kind = .write ∧ a.size = 32 ∧
      ((∃ n : Fin 32, a.offset = BitVec.ofNat 9 (0x100 + 4 * n.val)) ∨
        a.offset = 0x000 ∧ s.err = false ∧ ∃ i, decode a.data = .ok i ∧ i ≠ .nop ∧ i ≠ .keyexp)

/-! ## Reset (10_state.md R43, 70_reset_and_hazards.md) -/

/-- R250, R43: a reset is a step of its own; it sets KEYB, RK and DB to zero and KSV, ERR and ERRCODE to 0. What the host has still to
send and has been told stays (DESIGN CHOICE, log 3). -/
def Obligations.ResetClearsEverything : Prop :=
  ∀ (s : State) (rest : List HostEvent), s.requests = .reset :: rest →
    ∃ t, step s = .next t ∧ (∀ a, (h : a < 16) → t.keyb[a] = 0x00) ∧ (∀ i, (h : i < 32) → t.rk[i] = 0x00000000) ∧
      (∀ a, t.db.read a = 0x00) ∧ t.ksv = false ∧ t.err = false ∧ t.errcode = 0 ∧ SameBlock t State.reset ∧
      t.requests = rest ∧ t.responses = s.responses

/-- R252: after reset ENC1, DEC1, ENC8 and DEC8 raise NO_KEY, and so they do at every state with ERR = 0 that a run reaches in which no
KEYEXP is written, KSV staying 0; KEYEXP with no KEY write expands the all-zero key: RK[0] =
0x45603B23, RK[31] = 0xA16CA108, KSV = 1, no error. -/
def Obligations.AfterResetOnlyKeyexpGivesAKey : Prop :=
  (∀ b, b < 8 → exec (.enc1 b) State.reset = .next (State.reset.setError true 2) ∧
    exec (.dec1 b) State.reset = .next (State.reset.setError true 2)) ∧
  exec .enc8 State.reset = .next (State.reset.setError true 2) ∧
  exec .dec8 State.reset = .next (State.reset.setError true 2) ∧
  (∀ (k : Nat) (es : List HostEvent) (t : State), RunsTo k (State.reset.setRequests es) t →
    (∀ a, .access a ∈ es → ¬CommandWrite a 0x00000001) →
      t.ksv = false ∧ (t.err = false →
        (∀ b, b < 8 → exec (.enc1 b) t = .next (t.setError true 2) ∧ exec (.dec1 b) t = .next (t.setError true 2)) ∧
        exec .enc8 t = .next (t.setError true 2) ∧ exec .dec8 t = .next (t.setError true 2))) ∧
  ∃ t, exec .keyexp State.reset = .next t ∧ t.rk[0] = 0x45603B23 ∧ t.rk[31] = 0xA16CA108 ∧ t.ksv = true ∧
    t.err = false ∧ t.errcode = 0

/-! ## Invariants -/

/-- The reset state is legal: canonical data buffer, legal STATUS, KSV sound. -/
def Obligations.ResetStateIsLegal : Prop := Legal State.reset

/-- Every step keeps the data buffer canonical: addresses rising, all below 128, no byte listed that equals the unlisted one. -/
def Obligations.DataBufferStaysCanonical : Prop :=
  ∀ s t : State, CanonicalDb s → step s = .next t → CanonicalDb t

/-- 10_state.md R26: every step keeps the legal values of STATUS: ERR = 0 iff ERRCODE = 0, and ERRCODE is one of 0, 1, 2, 3. -/
def Obligations.StatusStaysLegal : Prop :=
  ∀ s t : State, StatusLegal s → step s = .next t → StatusLegal t

/-- 10_state.md R25, R27: every step keeps what KSV = 1 says, that RK holds the key schedule of the current KEYB. -/
def Obligations.KeyScheduleStaysCurrent : Prop :=
  ∀ s t : State, KeyScheduleCurrent s → step s = .next t → KeyScheduleCurrent t

/-- 10_state.md R42: no hidden state. Two runs of the same requests from states whose block state is equal go through together: the
block states stay equal and the reads return the same values. -/
def Obligations.EqualAccessesGiveEqualResults : Prop :=
  ∀ (k : Nat) (s s' t : State), SameBlock s s' → s.requests = s'.requests → RunsTo k s t →
    ∃ (t' : State) (out : List Word), RunsTo k s' t' ∧ SameBlock t t' ∧ t.requests = t'.requests ∧
      t.responses = s.responses ++ out ∧ t'.responses = s'.responses ++ out

/-- 60_exceptions.md R235: instances are independent. A step of instance k leaves every other instance as it was and gives instance k
its own next state. -/
def Obligations.InstancesAreIndependent : Prop :=
  ∀ (sys : List State) (k : Nat) (s : State), sys[k]? = some s →
    ∃ sys' t, step s = .next t ∧ stepInstance k sys = some (.next sys') ∧ sys'.length = sys.length ∧ sys'[k]? = some t ∧
      ∀ j, j ≠ k → sys'[j]? = sys[j]?

/-! ## Program text and the order of use (30_encoding.md R78, R79; 70_reset_and_hazards.md R253) -/

/-- R78: a command line makes a CMD write of the command's word, and an operand out of range makes no word. -/
def Obligations.CommandLineMakesItsWord : Prop :=
  ∀ i : Instr,
    (i.wellFormed = false → Line.access (.command i) = none) ∧
    (i.wellFormed = true → ∃ a c, Line.access (.command i) = some a ∧ CommandWrite a c ∧ decode c = .ok i)

/-- R253, R79: from any state with ERR = 0 and ERRCODE = 0, a canonical data buffer and no requests, `setkey h`,
KEYEXP, `ldblk b p`, ENC1 b, `chk`, `stblk b` in this order read STATUS 0x00000001 and then the four words of F(p, KS(h)): no error, KSV = 1, and the block encrypted under the key given. -/
def Obligations.OrderOfUseEncryptsUnderTheKey : Prop :=
  ∀ (s : State) (h p : BitVec 128) (b : Fin 8), CanonicalDb s → s.err = false → s.errcode = 0 → s.requests = [] →
    ∃ as t, assemble ((Pseudo.setkey h).expand ++ [.command .keyexp] ++ (Pseudo.ldblk b p).expand ++
        [.command (.enc1 b.val)] ++ Pseudo.chk.expand ++ (Pseudo.stblk b).expand) = some as ∧
      RunsTo as.length (s.withAccesses as) t ∧ t.requests = [] ∧
      let key : Block := ⟨h.extractLsb' 96 32, h.extractLsb' 64 32, h.extractLsb' 32 32, h.extractLsb' 0 32⟩
      let plain : Block := ⟨p.extractLsb' 96 32, p.extractLsb' 64 32, p.extractLsb' 32 32, p.extractLsb' 0 32⟩
      let y := blockF plain (keySchedule key)
      t.responses = s.responses ++ [0x00000001, y.x0, y.x1, y.x2, y.x3]

/-- 40_constant_tables.md R107: KS and F over the tables take the known-answer key and plaintext to the known-answer ciphertext, and
decryption takes it back. -/
def Obligations.KnownAnswerVectorIsReproduced : Prop :=
  let key : Block := ⟨0x01234567, 0x89ABCDEF, 0xFEDCBA98, 0x76543210⟩
  let cipher : Block := ⟨0x681EDF34, 0xD206965E, 0x86B3E94F, 0x536E4246⟩
  blockF key (keySchedule key) = cipher ∧ blockF cipher (Vector.ofFn fun i : Fin 32 => (keySchedule key)[31 - i.val]) = key
end

