-- ==== Sys2Proof/Laws/Bits.lean ====
section
/-! SUPPORT. Bytes of words, lanes of lane registers, and the register map: one spec lemma for each helper. -/

namespace Sys2Proof.Machine

/-! ## Bytes of a word (00_scope.md R10) -/

/-- BE32 is the inverse of BYTES_BE (R10). -/
@[simp] theorem be32_bytes (w : Word) : be32 (byteAt 3 w) (byteAt 2 w) (byteAt 1 w) (byteAt 0 w) = w := by
  unfold be32 byteAt
  ext i hi
  simp only [BitVec.getElem_or, BitVec.getElem_shiftLeft, BitVec.getElem_setWidth, BitVec.getLsbD_extractLsb']
  interval_cases i <;> simp

/-- The bytes of BE32, one lemma for each position. -/
@[simp] theorem byteAt_three_be32 (a b c d : Byte) : byteAt 3 (be32 a b c d) = a := by
  unfold be32 byteAt
  ext i hi
  simp only [BitVec.getElem_extractLsb', BitVec.getLsbD_or, BitVec.getLsbD_shiftLeft, BitVec.getLsbD_setWidth]
  interval_cases i <;> simp

@[simp] theorem byteAt_two_be32 (a b c d : Byte) : byteAt 2 (be32 a b c d) = b := by
  unfold be32 byteAt
  ext i hi
  simp only [BitVec.getElem_extractLsb', BitVec.getLsbD_or, BitVec.getLsbD_shiftLeft, BitVec.getLsbD_setWidth]
  interval_cases i <;> simp

@[simp] theorem byteAt_one_be32 (a b c d : Byte) : byteAt 1 (be32 a b c d) = c := by
  unfold be32 byteAt
  ext i hi
  simp only [BitVec.getElem_extractLsb', BitVec.getLsbD_or, BitVec.getLsbD_shiftLeft, BitVec.getLsbD_setWidth]
  interval_cases i <;> simp

@[simp] theorem byteAt_zero_be32 (a b c d : Byte) : byteAt 0 (be32 a b c d) = d := by
  unfold be32 byteAt
  ext i hi
  simp only [BitVec.getElem_extractLsb', BitVec.getLsbD_or, BitVec.getLsbD_shiftLeft, BitVec.getLsbD_setWidth]
  interval_cases i <;> simp

/-- substituteWord builds the word of the four substituted bytes (41_round_primitives.md R121). -/
theorem substituteWord_eq_be32 (x : Word) :
    substituteWord x = be32 (sbox (byteAt 3 x)) (sbox (byteAt 2 x)) (sbox (byteAt 1 x)) (sbox (byteAt 0 x)) := rfl

/-! ## Lanes (44_vector_engine.md R180, R181) -/

theorem lane_or (a b : LaneReg) (j : Nat) : lane (a ||| b) j = lane a j ||| lane b j := by
  unfold lane; ext i; simp

/-- Exclusive-or acts lane by lane (R181). -/
@[simp] theorem lane_xor (a b : LaneReg) (j : Nat) : lane (a ^^^ b) j = lane a j ^^^ lane b j := by
  unfold lane; ext i; simp

theorem lane_atLane {j k : Nat} (x : Word) (hj : j < 8) : lane (atLane k x) j = if j = k then x else 0 := by
  unfold lane atLane
  ext i hi
  split
  · subst_vars
    simp [show 32 * k + i < 256 by omega, BitVec.getLsbD_eq_getElem hi]
  · simp only [BitVec.getElem_extractLsb', BitVec.getLsbD_shiftLeft, BitVec.getLsbD_setWidth]
    by_cases h : 32 * j + i < 32 * k
    · simp [h]
    · have : 32 ≤ 32 * j + i - 32 * k := by omega
      simp [BitVec.getLsbD_of_ge x _ this]

/-- Lane j of the register built from f is f j (R180). -/
theorem lane_ofLanes (f : Nat → Word) {j : Nat} (h : j < 8) : lane (ofLanes f) j = f j := by
  unfold ofLanes
  simp only [lane_or, lane_atLane _ h]
  interval_cases j <;> simp

/-- Two lane registers with equal lanes are equal. -/
theorem laneReg_ext {v w : LaneReg} (h : ∀ j, j < 8 → lane v j = lane w j) : v = w := by
  ext i hi
  have hl := congrArg (fun x : Word => x.getLsbD (i % 32)) (h (i / 32) (by omega))
  simpa [lane, show i % 32 < 32 by omega, show 32 * (i / 32) + i % 32 = i by omega, BitVec.getLsbD_eq_getElem hi]
    using hl

/-- A lane register is the one built from its lanes. -/
theorem ofLanes_lane (v : LaneReg) : ofLanes (lane v) = v := laneReg_ext fun _ h => lane_ofLanes _ h

@[simp] theorem lane_bcast (k : Word) {j : Nat} (h : j < 8) : lane (bcast k) j = k := lane_ofLanes _ h

@[simp] theorem lane_rotl8 (a : LaneReg) (r : Nat) {j : Nat} (h : j < 8) : lane (rotl8 a r) j = rotl (lane a j) r :=
  lane_ofLanes _ h

@[simp] theorem lane_gather (p : Nat) (v : LaneReg) {j : Nat} (h : j < 8) :
    lane (gather p v) j = sbox32 (byteAt p (lane v j)) := lane_ofLanes _ h

end Sys2Proof.Machine
end

