-- ==== Sys2Proof/Laws/Decode.lean ====
section
/-! SUPPORT. The masks of the opcode map as arithmetic on the word's number, and the decoder in that form (30_encoding.md R73). -/

namespace Sys2Proof

/-- A row with every bit fixed selects one word. -/
theorem and_all_eq_iff (c p : Word) : c &&& 0xFFFFFFFF = p ↔ c.toNat = p.toNat := by
  have : (0xFFFFFFFF : Word) = BitVec.allOnes 32 := by decide
  rw [this, BitVec.and_allOnes]
  exact BitVec.toNat_inj.symm

/-- A row with BSEL free selects the words below 256 whose low five bits are its own. -/
theorem and_bselFree_eq_iff (c p : Word) {q : Nat} (hp : p.toNat = q) (hq : q < 32) :
    c &&& 0xFFFFFF1F = p ↔ c.toNat < 256 ∧ c.toNat % 32 = q := by
  have e : (c &&& 0xFFFFFF1F : Word).toNat = c.toNat &&& 0xFFFFFF1F := by simp
  have hi : (c.toNat &&& 0xFFFFFF1F) / 256 = c.toNat / 256 := by
    have := Nat.shiftRight_and_distrib (a := c.toNat) (b := 0xFFFFFF1F) (i := 8)
    simp only [Nat.shiftRight_eq_div_pow] at this
    rw [show (256 : Nat) = 2 ^ 8 from rfl, this, show (0xFFFFFF1F / 2 ^ 8 : Nat) = 2 ^ 24 - 1 from rfl,
      Nat.and_two_pow_sub_one_eq_mod]
    have := c.isLt
    omega
  have lo : (c.toNat &&& 0xFFFFFF1F) % 32 = c.toNat % 32 := by
    have := Nat.and_mod_two_pow (a := c.toNat) (b := 0xFFFFFF1F) (n := 5)
    rw [show (0xFFFFFF1F % 2 ^ 5 : Nat) = 2 ^ 5 - 1 from rfl, Nat.and_two_pow_sub_one_eq_mod] at this
    omega
  constructor
  · intro h
    rw [← e, h, hp] at hi lo
    omega
  · rintro ⟨h1, h2⟩
    apply BitVec.eq_of_toNat_eq
    rw [e, hp]
    obtain ⟨k, hk, hc⟩ : ∃ k, k < 8 ∧ c.toNat = 32 * k + q := ⟨c.toNat / 32, by omega, by omega⟩
    rw [hc]
    interval_cases k <;> interval_cases q <;> decide

/-- A row with WSEL free selects the words with its own low eight bits and its own bits 31:10. -/
theorem and_wselFree_eq_iff (c p : Word) {q f : Nat} (hp : p.toNat = 1024 * f + q) (hq : q < 256) :
    c &&& 0xFFFFFCFF = p ↔ c.toNat / 1024 = f ∧ c.toNat % 256 = q := by
  have e : (c &&& 0xFFFFFCFF : Word).toNat = c.toNat &&& 0xFFFFFCFF := by simp
  have hi : (c.toNat &&& 0xFFFFFCFF) / 1024 = c.toNat / 1024 := by
    have := Nat.shiftRight_and_distrib (a := c.toNat) (b := 0xFFFFFCFF) (i := 10)
    simp only [Nat.shiftRight_eq_div_pow] at this
    rw [show (1024 : Nat) = 2 ^ 10 from rfl, this, show (0xFFFFFCFF / 2 ^ 10 : Nat) = 2 ^ 22 - 1 from rfl,
      Nat.and_two_pow_sub_one_eq_mod]
    have := c.isLt
    omega
  have lo : (c.toNat &&& 0xFFFFFCFF) % 256 = c.toNat % 256 := by
    rw [show (256 : Nat) = 2 ^ 8 from rfl, Nat.and_mod_two_pow, show (0xFFFFFCFF % 2 ^ 8 : Nat) = 2 ^ 8 - 1 from rfl,
      Nat.and_two_pow_sub_one_eq_mod]
    omega
  have mid : (c.toNat &&& 0xFFFFFCFF) % 1024 < 256 := by
    rw [show (1024 : Nat) = 2 ^ 10 from rfl, Nat.and_mod_two_pow, show (0xFFFFFCFF % 2 ^ 10 : Nat) = 2 ^ 8 - 1 from rfl,
      Nat.and_two_pow_sub_one_eq_mod]
    omega
  constructor
  · intro h
    rw [← e, h, hp] at hi lo
    omega
  · rintro ⟨h1, h2⟩
    apply BitVec.eq_of_toNat_eq
    rw [e, hp]
    omega

/-- BSEL as arithmetic (R71). -/
theorem fieldBsel_eq (c : Word) : fieldBsel c = c.toNat / 32 % 8 := by simp [fieldBsel, Nat.shiftRight_eq_div_pow]

/-- WSEL as arithmetic (R71). -/
theorem fieldWsel_eq (c : Word) : fieldWsel c = c.toNat / 256 % 4 := by simp [fieldWsel, Nat.shiftRight_eq_div_pow]

/-- One row of the opcode map, as a test of the word's number. -/
theorem find_row {c : Word} (r : Row) (rs : List Row) (p : Prop) [Decidable p] (h : c &&& r.mask = r.pattern ↔ p) :
    (match (r :: rs).find? (fun r => r.selects c) with
      | some r => Except.ok (r.build c)
      | none => Except.error (rejectReason c)) =
    if p then Except.ok (r.build c)
    else
      match rs.find? (fun r => r.selects c) with
      | some r => Except.ok (r.build c)
      | none => Except.error (rejectReason c) := by
  by_cases hp : p
  · simp [List.find?, Row.selects, hp, h.2 hp]
  · have hs : (c &&& r.mask == r.pattern) = false := by simpa using fun e => hp (h.1 e)
    simp [List.find?, Row.selects, hp, hs]

/-- The decoder as tests of the word's number, in the order of the rows of R73. -/
theorem decode_eq (c : Word) :
    decode c =
      if c.toNat = 0 then .ok .nop
      else if c.toNat = 1 then .ok .keyexp
      else if c.toNat < 256 ∧ c.toNat % 32 = 2 then .ok (.enc1 (fieldBsel c))
      else if c.toNat < 256 ∧ c.toNat % 32 = 18 then .ok (.dec1 (fieldBsel c))
      else if c.toNat = 3 then .ok .enc8
      else if c.toNat = 19 then .ok .dec8
      else if c.toNat / 1024 = 0 ∧ c.toNat % 256 = 4 then .ok (.sub8 (fieldWsel c))
      else if c.toNat / 1024 = 1 ∧ c.toNat % 256 = 4 then .ok (.tau8 (fieldWsel c))
      else if c.toNat / 1024 = 2 ∧ c.toNat % 256 = 4 then .ok (.tauk8 (fieldWsel c))
      else .error (rejectReason c) := by
  unfold decode opcodeRows
  refine (find_row rowNop _ _ (and_all_eq_iff c 0)).trans (congrArg _ ?_)
  refine (find_row rowKeyexp _ _ (and_all_eq_iff c 1)).trans (congrArg _ ?_)
  refine (find_row rowEnc1 _ _ (and_bselFree_eq_iff c 2 (q := 2) rfl (by omega))).trans (congrArg _ ?_)
  refine (find_row rowDec1 _ _ (and_bselFree_eq_iff c 0x12 (q := 18) rfl (by omega))).trans (congrArg _ ?_)
  refine (find_row rowEnc8 _ _ (and_all_eq_iff c 3)).trans (congrArg _ ?_)
  refine (find_row rowDec8 _ _ (and_all_eq_iff c 0x13)).trans (congrArg _ ?_)
  refine (find_row rowSub8 _ _ (and_wselFree_eq_iff c 4 (q := 4) (f := 0) rfl (by omega))).trans (congrArg _ ?_)
  refine (find_row rowTau8 _ _ (and_wselFree_eq_iff c 0x404 (q := 4) (f := 1) rfl (by omega))).trans (congrArg _ ?_)
  exact find_row rowTauk8 _ _ (and_wselFree_eq_iff c 0x804 (q := 4) (f := 2) rfl (by omega))

end Sys2Proof
end

