-- ==== Sys2Proof/Laws/Memory.lean ====
section
/-! SUPPORT. The laws of the data buffer: read after write, writes leave every other byte alone, every operation keeps the
canonical form, and canonical buffers with equal bytes are equal. -/

namespace Sys2Proof.Machine

/-! ## Bytes -/

@[simp] theorem read_nil (a : Nat) : Memory.read [] a = Memory.unlisted := rfl

/-- A write leaves every other byte alone, whatever the list. -/
theorem read_write_other (m : Memory) {a b : Nat} (v : Byte) (h : a ≠ b) : (m.write a v).read b = m.read b := by
  induction m with
  | nil =>
    simp only [Memory.write]
    split_ifs <;> simp [Memory.read, h]
  | cons c m ih =>
    obtain ⟨k, u⟩ := c
    simp only [Memory.write]
    split_ifs with h1 h2 h3 h4 <;> (try subst_vars) <;> simp_all [Memory.read]

/-- Below the lowest listed address everything reads as unlisted. -/
theorem read_below {hi lo : Nat} {m : Memory} (hw : Memory.wfFrom hi lo m = true) {a : Nat} (h : a < lo) :
    m.read a = Memory.unlisted := by
  induction m generalizing lo with
  | nil => rfl
  | cons c m ih =>
    obtain ⟨k, u⟩ := c
    simp only [Memory.wfFrom, Bool.and_eq_true, decide_eq_true_eq] at hw
    have hk : k ≠ a := by omega
    simp only [Memory.read, if_neg hk]
    exact ih hw.2 (by omega)

/-- In a canonical buffer a byte reads as the value last written to it. -/
theorem read_write_same {hi lo : Nat} {m : Memory} (hw : Memory.wfFrom hi lo m = true) (a : Nat) (v : Byte) :
    (m.write a v).read a = v := by
  induction m generalizing lo with
  | nil =>
    simp only [Memory.write]
    split_ifs with hv <;> simp [Memory.read, hv]
  | cons c m ih =>
    obtain ⟨k, u⟩ := c
    simp only [Memory.wfFrom, Bool.and_eq_true, decide_eq_true_eq] at hw
    simp only [Memory.write]
    split_ifs with h1 h2 h3 h4
    · have hk : k ≠ a := by omega
      simp only [Memory.read, if_neg hk]
      rw [read_below hw.2 (by omega), h2]
    · simp [Memory.read]
    · rw [read_below hw.2 (by omega), h4]
    · simp [Memory.read]
    · have hk : k ≠ a := by omega
      simp only [Memory.read, if_neg hk]
      exact ih hw.2

/-- The canonical form from a bound is one from every lower bound. -/
theorem wfFrom_mono {hi lo lo' : Nat} {m : Memory} (h : lo' ≤ lo) (hw : Memory.wfFrom hi lo m = true) :
    Memory.wfFrom hi lo' m = true := by
  cases m with
  | nil => rfl
  | cons c m =>
    obtain ⟨k, u⟩ := c
    simp only [Memory.wfFrom, Bool.and_eq_true, decide_eq_true_eq] at hw ⊢
    exact ⟨⟨⟨by omega, hw.1.1.2⟩, hw.1.2⟩, hw.2⟩

/-- A write at an address of the buffer keeps the canonical form. -/
theorem wfFrom_write {hi lo : Nat} {m : Memory} (hw : Memory.wfFrom hi lo m = true) {a : Nat} (h : lo ≤ a) (h' : a < hi)
    (v : Byte) : Memory.wfFrom hi lo (m.write a v) = true := by
  induction m generalizing lo with
  | nil => by_cases hv : v = Memory.unlisted <;> simp [Memory.write, Memory.wfFrom, hv, h, h']
  | cons c m ih =>
    obtain ⟨k, u⟩ := c
    have hw' := hw
    simp only [Memory.wfFrom, Bool.and_eq_true, decide_eq_true_eq] at hw
    simp only [Memory.write]
    split_ifs with h1 h2 h3 h4
    · exact hw'
    · simp only [Memory.wfFrom, Bool.and_eq_true, decide_eq_true_eq]
      exact ⟨⟨⟨h, h'⟩, h2⟩, ⟨⟨by omega, hw.1.1.2⟩, hw.1.2⟩, hw.2⟩
    · exact wfFrom_mono (by omega) hw.2
    · simp only [Memory.wfFrom, Bool.and_eq_true, decide_eq_true_eq]
      exact ⟨⟨⟨h, h'⟩, h4⟩, h3 ▸ hw.2⟩
    · simp only [Memory.wfFrom, Bool.and_eq_true, decide_eq_true_eq]
      exact ⟨⟨⟨hw.1.1.1, hw.1.1.2⟩, hw.1.2⟩, ih hw.2 (by omega)⟩

/-- A write to one of DB[0..127] keeps the canonical form. -/
theorem wf_write {m : Memory} (hw : m.wf = true) {a : Nat} (h : a < 128) (v : Byte) : (m.write a v).wf = true :=
  wfFrom_write hw (Nat.zero_le a) h v

/-- Canonical buffers that read alike are equal data. -/
theorem wfFrom_ext {hi lo : Nat} {m m' : Memory} (hw : Memory.wfFrom hi lo m = true) (hw' : Memory.wfFrom hi lo m' = true)
    (h : ∀ a, m.read a = m'.read a) : m = m' := by
  induction m generalizing lo m' with
  | nil =>
    cases m' with
    | nil => rfl
    | cons c' n' =>
      obtain ⟨k', u'⟩ := c'
      simp only [Memory.wfFrom, Bool.and_eq_true, decide_eq_true_eq] at hw'
      have := h k'
      simp only [Memory.read, if_true] at this
      exact absurd this.symm hw'.1.2
  | cons c n ih =>
    obtain ⟨k, u⟩ := c
    cases m' with
    | nil =>
      simp only [Memory.wfFrom, Bool.and_eq_true, decide_eq_true_eq] at hw
      have := h k
      simp only [Memory.read, if_true] at this
      exact absurd this hw.1.2
    | cons c' n' =>
      obtain ⟨k', u'⟩ := c'
      simp only [Memory.wfFrom, Bool.and_eq_true, decide_eq_true_eq] at hw hw'
      have hkk : k = k' := by
        rcases Nat.lt_trichotomy k k' with hlt | heq | hgt
        · have := h k
          simp only [Memory.read, if_true, if_neg (show ¬k' = k by omega)] at this
          rw [read_below hw'.2 (by omega)] at this
          exact absurd this hw.1.2
        · exact heq
        · have := h k'
          simp only [Memory.read, if_true, if_neg (show ¬k = k' by omega)] at this
          rw [read_below hw.2 (by omega)] at this
          exact absurd this.symm hw'.1.2
      subst hkk
      have huu : u = u' := by simpa [Memory.read] using h k
      subst huu
      have hn : n = n' := by
        refine ih hw.2 hw'.2 fun a => ?_
        by_cases ha : k = a
        · subst ha
          rw [read_below hw.2 (by omega), read_below hw'.2 (by omega)]
        · simpa [Memory.read, ha] using h a
      rw [hn]

/-- Outside DB[0..127] a canonical buffer reads 0. -/
theorem read_outside {hi lo : Nat} {m : Memory} (hw : Memory.wfFrom hi lo m = true) {a : Nat} (h : hi ≤ a) :
    m.read a = Memory.unlisted := by
  induction m generalizing lo with
  | nil => rfl
  | cons c m ih =>
    obtain ⟨k, u⟩ := c
    simp only [Memory.wfFrom, Bool.and_eq_true, decide_eq_true_eq] at hw
    simp only [Memory.read, if_neg (show ¬k = a by omega)]
    exact ih hw.2

/-! ## Words (00_scope.md R11) -/

/-- A word depends on its four bytes only. -/
theorem memRead_congr {m m' : Memory} {a : Nat} (h : ∀ p, p < 4 → m.read (a + p) = m'.read (a + p)) :
    memRead m a = memRead m' a := by
  have h0 := h 0 (by omega)
  rw [Nat.add_zero] at h0
  rw [memRead, memRead, h0, h 1 (by omega), h 2 (by omega), h 3 (by omega)]

/-- A word write leaves the bytes outside its four alone. -/
theorem read_memWrite_other (m : Memory) {a b : Nat} (v : Word) (h : b < a ∨ a + 4 ≤ b) :
    (memWrite m a v).read b = m.read b := by
  unfold memWrite
  rw [read_write_other _ _ (by omega), read_write_other _ _ (by omega), read_write_other _ _ (by omega),
    read_write_other _ _ (by omega)]

/-- A word write to DB[0..127] keeps the canonical form. -/
theorem wf_memWrite {m : Memory} (hw : m.wf = true) {a : Nat} (h : a + 3 < 128) (v : Word) :
    (memWrite m a v).wf = true := by
  unfold memWrite
  exact wf_write (wf_write (wf_write (wf_write hw (by omega) _) (by omega) _) (by omega) _) (by omega) _

/-- The four bytes a word write leaves, the most significant first. -/
theorem read_memWrite_bytes {m : Memory} (hw : m.wf = true) {a : Nat} (h : a + 3 < 128) (v : Word) :
    (memWrite m a v).read a = byteAt 3 v ∧ (memWrite m a v).read (a + 1) = byteAt 2 v ∧
      (memWrite m a v).read (a + 2) = byteAt 1 v ∧ (memWrite m a v).read (a + 3) = byteAt 0 v := by
  have h0 := wf_write hw (show a < 128 by omega) (byteAt 3 v)
  have h1 := wf_write h0 (show a + 1 < 128 by omega) (byteAt 2 v)
  have h2 := wf_write h1 (show a + 2 < 128 by omega) (byteAt 1 v)
  unfold memWrite
  refine ⟨?_, ?_, ?_, read_write_same h2 _ _⟩
  · rw [read_write_other _ _ (by omega), read_write_other _ _ (by omega), read_write_other _ _ (by omega)]
    exact read_write_same hw _ _
  · rw [read_write_other _ _ (by omega), read_write_other _ _ (by omega)]
    exact read_write_same h0 _ _
  · rw [read_write_other _ _ (by omega)]
    exact read_write_same h1 _ _

/-- A word reads as the value last written to it. -/
theorem memRead_memWrite_same {m : Memory} (hw : m.wf = true) {a : Nat} (h : a + 3 < 128) (v : Word) :
    memRead (memWrite m a v) a = v := by
  obtain ⟨h0, h1, h2, h3⟩ := read_memWrite_bytes hw h v
  rw [memRead, h0, h1, h2, h3, be32_bytes]

/-- A word write leaves every word that shares no byte with it alone. -/
theorem memRead_memWrite_other (m : Memory) {a b : Nat} (v : Word) (h : b + 4 ≤ a ∨ a + 4 ≤ b) :
    memRead (memWrite m a v) b = memRead m b := by
  unfold memRead
  rw [read_memWrite_other _ _ (by omega), read_memWrite_other _ _ (by omega), read_memWrite_other _ _ (by omega),
    read_memWrite_other _ _ (by omega)]

/-! ## Blocks (10_state.md R23) -/

/-- A block write leaves the bytes outside the block alone. -/
theorem read_storeBlock_other (m : Memory) {b a : Nat} (y : Block) (h : a < 16 * b ∨ 16 * b + 16 ≤ a) :
    (storeBlock m b y).read a = m.read a := by
  unfold storeBlock wordAddr
  rw [read_memWrite_other _ _ (by omega), read_memWrite_other _ _ (by omega), read_memWrite_other _ _ (by omega),
    read_memWrite_other _ _ (by omega)]

/-- A block write keeps the canonical form. -/
theorem wf_storeBlock {m : Memory} (hw : m.wf = true) {b : Nat} (h : b < 8) (y : Block) : (storeBlock m b y).wf = true := by
  unfold storeBlock wordAddr
  exact wf_memWrite (wf_memWrite (wf_memWrite (wf_memWrite hw (by omega) _) (by omega) _) (by omega) _) (by omega) _

/-- A block reads as the four words last written to it. -/
theorem loadBlock_storeBlock_same {m : Memory} (hw : m.wf = true) {b : Nat} (h : b < 8) (y : Block) :
    loadBlock (storeBlock m b y) b = y := by
  have w0 := wf_memWrite hw (show wordAddr b 0 + 3 < 128 by unfold wordAddr; omega) y.x0
  have w1 := wf_memWrite w0 (show wordAddr b 1 + 3 < 128 by unfold wordAddr; omega) y.x1
  have w2 := wf_memWrite w1 (show wordAddr b 2 + 3 < 128 by unfold wordAddr; omega) y.x2
  unfold loadBlock storeBlock
  rw [memRead_memWrite_other (b := wordAddr b 0) _ _ (by unfold wordAddr; omega),
    memRead_memWrite_other (b := wordAddr b 0) _ _ (by unfold wordAddr; omega),
    memRead_memWrite_other (b := wordAddr b 0) _ _ (by unfold wordAddr; omega),
    memRead_memWrite_same hw (by unfold wordAddr; omega),
    memRead_memWrite_other (b := wordAddr b 1) _ _ (by unfold wordAddr; omega),
    memRead_memWrite_other (b := wordAddr b 1) _ _ (by unfold wordAddr; omega),
    memRead_memWrite_same w0 (by unfold wordAddr; omega),
    memRead_memWrite_other (b := wordAddr b 2) _ _ (by unfold wordAddr; omega),
    memRead_memWrite_same w1 (by unfold wordAddr; omega),
    memRead_memWrite_same w2 (by unfold wordAddr; omega)]

/-- A block write leaves every other block alone. -/
theorem loadBlock_storeBlock_other (m : Memory) {b c : Nat} (y : Block) (h : b ≠ c) :
    loadBlock (storeBlock m b y) c = loadBlock m c := by
  have hr : ∀ i, i < 4 → memRead (storeBlock m b y) (wordAddr c i) = memRead m (wordAddr c i) := fun i hi =>
    memRead_congr fun p hp => read_storeBlock_other m y (by unfold wordAddr; omega)
  rw [loadBlock, loadBlock, hr 0 (by omega), hr 1 (by omega), hr 2 (by omega), hr 3 (by omega)]

/-! ## Lane-words (44_vector_engine.md R180) -/

/-- Is byte address a one of lane-word i, the words 16j + 4i for j = 0..7? -/
def inLaneWord (i a : Nat) : Prop := a < 128 ∧ a % 16 / 4 = i

theorem foldl_lanes_read (m : Memory) (i : Nat) (v : LaneReg) (js : List Nat) (a : Nat)
    (h : ∀ j ∈ js, a < 16 * j + 4 * i ∨ 16 * j + 4 * i + 4 ≤ a) :
    (js.foldl (fun m j => memWrite m (wordAddr j i) (lane v j)) m).read a = m.read a := by
  induction js generalizing m with
  | nil => rfl
  | cons j js ih =>
    rw [List.foldl_cons, ih _ fun k hk => h k (List.mem_cons_of_mem _ hk)]
    exact read_memWrite_other m _ (h j List.mem_cons_self)

theorem foldl_lanes_wf {m : Memory} (hw : m.wf = true) {i : Nat} (hi : i < 4) (v : LaneReg) (js : List Nat)
    (h : ∀ j ∈ js, j < 8) : (js.foldl (fun m j => memWrite m (wordAddr j i) (lane v j)) m).wf = true := by
  induction js generalizing m with
  | nil => exact hw
  | cons j js ih =>
    have hj := h j List.mem_cons_self
    exact ih (wf_memWrite hw (by unfold wordAddr; omega) _) fun k hk => h k (List.mem_cons_of_mem _ hk)

/-- Writing a lane-word leaves every byte outside it alone. -/
theorem read_storeLanes_other (m : Memory) {i a : Nat} (hi : i < 4) (v : LaneReg) (h : ¬inLaneWord i a) :
    (storeLanes m i v).read a = m.read a := by
  refine foldl_lanes_read m i v _ a fun j hj => ?_
  have hj8 : j < 8 := by simp at hj; omega
  by_contra hc
  exact h ⟨by omega, by omega⟩

/-- Writing a lane-word keeps the canonical form. -/
theorem wf_storeLanes {m : Memory} (hw : m.wf = true) {i : Nat} (hi : i < 4) (v : LaneReg) : (storeLanes m i v).wf = true :=
  foldl_lanes_wf hw hi v _ fun j hj => by simp at hj; omega

/-- Each word of a lane-word reads as its lane. -/
theorem memRead_storeLanes_same {m : Memory} (hw : m.wf = true) {i j : Nat} (hi : i < 4) (hj : j < 8) (v : LaneReg) :
    memRead (storeLanes m i v) (wordAddr j i) = lane v j := by
  have key : ∀ (js : List Nat) (m : Memory), m.wf = true → (∀ k ∈ js, k < 8) → js.Nodup → j ∈ js →
      memRead (js.foldl (fun m j => memWrite m (wordAddr j i) (lane v j)) m) (wordAddr j i) = lane v j := by
    intro js
    induction js with
    | nil => intro m _ _ _ h; simp at h
    | cons k js ih =>
      intro m hw h8 hd hm
      have hk := h8 k List.mem_cons_self
      have hw' := wf_memWrite hw (show wordAddr k i + 3 < 128 by unfold wordAddr; omega) (lane v k)
      rw [List.foldl_cons]
      by_cases hjk : j ∈ js
      · exact ih _ hw' (fun x hx => h8 x (List.mem_cons_of_mem _ hx)) (List.nodup_cons.1 hd).2 hjk
      · have hjk' : j = k := by simpa [hjk] using hm
        subst hjk'
        rw [memRead_congr (m' := memWrite m (wordAddr j i) (lane v j)) fun p hp =>
          foldl_lanes_read _ i v js _ fun x hx => ?_]
        · exact memRead_memWrite_same hw (by unfold wordAddr; omega) _
        · have : x ≠ j := fun e => hjk (e ▸ hx)
          unfold wordAddr; omega
  refine key _ m hw (fun k hk => by simp at hk; omega) (by decide) ?_
  simp; omega

/-- Writing a lane-word leaves the other word positions alone. -/
theorem memRead_storeLanes_other (m : Memory) {i i' j : Nat} (hi : i < 4) (hi' : i' < 4) (h : i ≠ i') (v : LaneReg) :
    memRead (storeLanes m i v) (wordAddr j i') = memRead m (wordAddr j i') :=
  memRead_congr fun p hp => read_storeLanes_other m hi v (by unfold inLaneWord wordAddr; omega)

/-- Unpacking four lane registers keeps the canonical form. -/
theorem wf_storeLaneBlock {m : Memory} (hw : m.wf = true) (v : LaneBlock) : (storeLaneBlock m v).wf = true :=
  wf_storeLanes (wf_storeLanes (wf_storeLanes (wf_storeLanes hw (by omega) _) (by omega) _) (by omega) _) (by omega) _

/-- After unpacking, block j is lane j of the four registers (R180). -/
theorem loadBlock_storeLaneBlock {m : Memory} (hw : m.wf = true) (v : LaneBlock) {j : Nat} (hj : j < 8) :
    loadBlock (storeLaneBlock m v) j = v.laneBlock j := by
  have w0 := wf_storeLanes hw (show (0 : Nat) < 4 by omega) v.lx0
  have w1 := wf_storeLanes w0 (show (1 : Nat) < 4 by omega) v.lx1
  have w2 := wf_storeLanes w1 (show (2 : Nat) < 4 by omega) v.lx2
  unfold loadBlock storeLaneBlock LaneBlock.laneBlock
  rw [memRead_storeLanes_other (i' := 0) _ (by omega) (by omega) (by omega),
    memRead_storeLanes_other (i' := 0) _ (by omega) (by omega) (by omega),
    memRead_storeLanes_other (i' := 0) _ (by omega) (by omega) (by omega),
    memRead_storeLanes_same hw (by omega) hj,
    memRead_storeLanes_other (i' := 1) _ (by omega) (by omega) (by omega),
    memRead_storeLanes_other (i' := 1) _ (by omega) (by omega) (by omega),
    memRead_storeLanes_same w0 (by omega) hj,
    memRead_storeLanes_other (i' := 2) _ (by omega) (by omega) (by omega),
    memRead_storeLanes_same w1 (by omega) hj,
    memRead_storeLanes_same w2 (by omega) hj]

/-- Packing: lane j of the four registers is block j (R180). -/
theorem laneBlock_loadLaneBlock (m : Memory) {j : Nat} (hj : j < 8) : (loadLaneBlock m).laneBlock j = loadBlock m j := by
  simp only [loadLaneBlock, LaneBlock.laneBlock, loadLanes, lane_ofLanes _ hj, loadBlock]

/-- A block's bytes are those of its four words. -/
theorem read_eq_of_loadBlock_eq {m m' : Memory} {b a : Nat} (h : loadBlock m b = loadBlock m' b) (ha : a / 16 = b) :
    m.read a = m'.read a := by
  have hb : ∀ (m m' : Memory) (k : Nat), memRead m k = memRead m' k →
      m.read k = m'.read k ∧ m.read (k + 1) = m'.read (k + 1) ∧ m.read (k + 2) = m'.read (k + 2) ∧
        m.read (k + 3) = m'.read (k + 3) := by
    intro m m' k hk
    have h3 := congrArg (byteAt 3) hk
    have h2 := congrArg (byteAt 2) hk
    have h1 := congrArg (byteAt 1) hk
    have h0 := congrArg (byteAt 0) hk
    simp only [memRead, byteAt_three_be32, byteAt_two_be32, byteAt_one_be32, byteAt_zero_be32] at h0 h1 h2 h3
    exact ⟨h3, h2, h1, h0⟩
  simp only [loadBlock, Block.mk.injEq] at h
  obtain ⟨h0, h1, h2, h3⟩ := h
  obtain ⟨p, hp, rfl⟩ : ∃ p, p < 16 ∧ a = 16 * b + p := ⟨a % 16, by omega, by omega⟩
  have b0 := hb _ _ _ h0
  have b1 := hb _ _ _ h1
  have b2 := hb _ _ _ h2
  have b3 := hb _ _ _ h3
  simp only [wordAddr, Nat.mul_zero, Nat.add_zero, Nat.mul_one, Nat.add_assoc, Nat.reduceMul, Nat.reduceAdd] at b0 b1 b2 b3
  interval_cases p <;> tauto

/-- Canonical buffers with the same eight blocks are equal data. -/
theorem wf_ext_blocks {m m' : Memory} (hw : m.wf = true) (hw' : m'.wf = true)
    (h : ∀ b, b < 8 → loadBlock m b = loadBlock m' b) : m = m' := by
  refine wfFrom_ext hw hw' fun a => ?_
  by_cases ha : a < 128
  · exact read_eq_of_loadBlock_eq (h (a / 16) (by omega)) rfl
  · rw [read_outside hw (by omega), read_outside hw' (by omega)]

end Sys2Proof.Machine
end

