-- ==== Sys2Proof/Laws/State.lean ====
section
/-! SUPPORT. One lemma per field per update of the state, each true by rfl, so that no proof unfolds a record update; and
what reset leaves in each field. -/

namespace Sys2Proof.Machine

variable (s : State)

@[simp] theorem setKeyb_keyb (k : Vector Byte 16) : (s.setKeyb k).keyb = k := rfl
@[simp] theorem setKeyb_rk (k : Vector Byte 16) : (s.setKeyb k).rk = s.rk := rfl
@[simp] theorem setKeyb_db (k : Vector Byte 16) : (s.setKeyb k).db = s.db := rfl
@[simp] theorem setKeyb_ksv (k : Vector Byte 16) : (s.setKeyb k).ksv = s.ksv := rfl
@[simp] theorem setKeyb_err (k : Vector Byte 16) : (s.setKeyb k).err = s.err := rfl
@[simp] theorem setKeyb_errcode (k : Vector Byte 16) : (s.setKeyb k).errcode = s.errcode := rfl
@[simp] theorem setKeyb_requests (k : Vector Byte 16) : (s.setKeyb k).requests = s.requests := rfl
@[simp] theorem setKeyb_responses (k : Vector Byte 16) : (s.setKeyb k).responses = s.responses := rfl

@[simp] theorem setRk_keyb (r : Vector Word 32) : (s.setRk r).keyb = s.keyb := rfl
@[simp] theorem setRk_rk (r : Vector Word 32) : (s.setRk r).rk = r := rfl
@[simp] theorem setRk_db (r : Vector Word 32) : (s.setRk r).db = s.db := rfl
@[simp] theorem setRk_ksv (r : Vector Word 32) : (s.setRk r).ksv = s.ksv := rfl
@[simp] theorem setRk_err (r : Vector Word 32) : (s.setRk r).err = s.err := rfl
@[simp] theorem setRk_errcode (r : Vector Word 32) : (s.setRk r).errcode = s.errcode := rfl
@[simp] theorem setRk_requests (r : Vector Word 32) : (s.setRk r).requests = s.requests := rfl
@[simp] theorem setRk_responses (r : Vector Word 32) : (s.setRk r).responses = s.responses := rfl

@[simp] theorem setDb_keyb (m : Memory) : (s.setDb m).keyb = s.keyb := rfl
@[simp] theorem setDb_rk (m : Memory) : (s.setDb m).rk = s.rk := rfl
@[simp] theorem setDb_db (m : Memory) : (s.setDb m).db = m := rfl
@[simp] theorem setDb_ksv (m : Memory) : (s.setDb m).ksv = s.ksv := rfl
@[simp] theorem setDb_err (m : Memory) : (s.setDb m).err = s.err := rfl
@[simp] theorem setDb_errcode (m : Memory) : (s.setDb m).errcode = s.errcode := rfl
@[simp] theorem setDb_requests (m : Memory) : (s.setDb m).requests = s.requests := rfl
@[simp] theorem setDb_responses (m : Memory) : (s.setDb m).responses = s.responses := rfl

@[simp] theorem setKsv_keyb (b : Bool) : (s.setKsv b).keyb = s.keyb := rfl
@[simp] theorem setKsv_rk (b : Bool) : (s.setKsv b).rk = s.rk := rfl
@[simp] theorem setKsv_db (b : Bool) : (s.setKsv b).db = s.db := rfl
@[simp] theorem setKsv_ksv (b : Bool) : (s.setKsv b).ksv = b := rfl
@[simp] theorem setKsv_err (b : Bool) : (s.setKsv b).err = s.err := rfl
@[simp] theorem setKsv_errcode (b : Bool) : (s.setKsv b).errcode = s.errcode := rfl
@[simp] theorem setKsv_requests (b : Bool) : (s.setKsv b).requests = s.requests := rfl
@[simp] theorem setKsv_responses (b : Bool) : (s.setKsv b).responses = s.responses := rfl

@[simp] theorem setError_keyb (b : Bool) (c : BitVec 4) : (s.setError b c).keyb = s.keyb := rfl
@[simp] theorem setError_rk (b : Bool) (c : BitVec 4) : (s.setError b c).rk = s.rk := rfl
@[simp] theorem setError_db (b : Bool) (c : BitVec 4) : (s.setError b c).db = s.db := rfl
@[simp] theorem setError_ksv (b : Bool) (c : BitVec 4) : (s.setError b c).ksv = s.ksv := rfl
@[simp] theorem setError_err (b : Bool) (c : BitVec 4) : (s.setError b c).err = b := rfl
@[simp] theorem setError_errcode (b : Bool) (c : BitVec 4) : (s.setError b c).errcode = c := rfl
@[simp] theorem setError_requests (b : Bool) (c : BitVec 4) : (s.setError b c).requests = s.requests := rfl
@[simp] theorem setError_responses (b : Bool) (c : BitVec 4) : (s.setError b c).responses = s.responses := rfl

@[simp] theorem setRequests_keyb (r : List HostEvent) : (s.setRequests r).keyb = s.keyb := rfl
@[simp] theorem setRequests_rk (r : List HostEvent) : (s.setRequests r).rk = s.rk := rfl
@[simp] theorem setRequests_db (r : List HostEvent) : (s.setRequests r).db = s.db := rfl
@[simp] theorem setRequests_ksv (r : List HostEvent) : (s.setRequests r).ksv = s.ksv := rfl
@[simp] theorem setRequests_err (r : List HostEvent) : (s.setRequests r).err = s.err := rfl
@[simp] theorem setRequests_errcode (r : List HostEvent) : (s.setRequests r).errcode = s.errcode := rfl
@[simp] theorem setRequests_requests (r : List HostEvent) : (s.setRequests r).requests = r := rfl
@[simp] theorem setRequests_responses (r : List HostEvent) : (s.setRequests r).responses = s.responses := rfl

@[simp] theorem respond_keyb (v : Word) : (s.respond v).keyb = s.keyb := rfl
@[simp] theorem respond_rk (v : Word) : (s.respond v).rk = s.rk := rfl
@[simp] theorem respond_db (v : Word) : (s.respond v).db = s.db := rfl
@[simp] theorem respond_ksv (v : Word) : (s.respond v).ksv = s.ksv := rfl
@[simp] theorem respond_err (v : Word) : (s.respond v).err = s.err := rfl
@[simp] theorem respond_errcode (v : Word) : (s.respond v).errcode = s.errcode := rfl
@[simp] theorem respond_requests (v : Word) : (s.respond v).requests = s.requests := rfl
@[simp] theorem respond_responses (v : Word) : (s.respond v).responses = s.responses ++ [v] := rfl

@[simp] theorem reset_keyb : State.reset.keyb = Vector.replicate 16 0 := rfl
@[simp] theorem reset_rk : State.reset.rk = Vector.replicate 32 0 := rfl
@[simp] theorem reset_db : State.reset.db = [] := rfl
@[simp] theorem reset_ksv : State.reset.ksv = false := rfl
@[simp] theorem reset_err : State.reset.err = false := rfl
@[simp] theorem reset_errcode : State.reset.errcode = 0 := rfl
@[simp] theorem reset_requests : State.reset.requests = [] := rfl
@[simp] theorem reset_responses : State.reset.responses = [] := rfl

/-- The reset state's data buffer is canonical. -/
theorem reset_db_wf : State.reset.db.wf = true := rfl

/-- Two states with equal fields are equal. -/
theorem state_ext {s t : State} (h1 : s.keyb = t.keyb) (h2 : s.rk = t.rk) (h3 : s.db = t.db) (h4 : s.ksv = t.ksv)
    (h5 : s.err = t.err) (h6 : s.errcode = t.errcode) (h7 : s.requests = t.requests)
    (h8 : s.responses = t.responses) : s = t := by
  cases s; cases t; simp_all

/-- Replacing the data buffer by itself changes nothing. -/
@[simp] theorem setDb_self : s.setDb s.db = s := rfl

/-- The last of two replacements of the data buffer counts. -/
@[simp] theorem setDb_setDb (m m' : Memory) : (s.setDb m).setDb m' = s.setDb m' := rfl

end Sys2Proof.Machine
end

