-- ==== Sys2Proof/Laws/Ops.lean ====
section
/-! SUPPORT. One spec lemma for each shared operation: recording and clearing an error, the key register, the commands' shared
forms, and what a host access can do. -/

namespace Sys2Proof.Machine

/-! ## Recording an error (60_exceptions.md R223) -/

/-- With ERR = 1 nothing is recorded: the first error is kept. -/
theorem raiseError_of_err {s : State} (c : ErrorCause) (h : s.err = true) : raiseError c s = s := by simp [raiseError, h]

/-- With ERR = 0 the error is recorded. -/
theorem raiseError_of_no_err {s : State} (c : ErrorCause) (h : s.err = false) : raiseError c s = s.setError true c.code := by
  simp [raiseError, h]

@[simp] theorem raiseError_err (c : ErrorCause) (s : State) : (raiseError c s).err = true := by
  unfold raiseError; split <;> simp_all

theorem raiseError_errcode (c : ErrorCause) (s : State) :
    (raiseError c s).errcode = if s.err then s.errcode else c.code := by
  unfold raiseError; split <;> simp_all

@[simp] theorem raiseError_keyb (c : ErrorCause) (s : State) : (raiseError c s).keyb = s.keyb := by
  unfold raiseError; split <;> simp

@[simp] theorem raiseError_rk (c : ErrorCause) (s : State) : (raiseError c s).rk = s.rk := by
  unfold raiseError; split <;> simp

@[simp] theorem raiseError_db (c : ErrorCause) (s : State) : (raiseError c s).db = s.db := by
  unfold raiseError; split <;> simp

@[simp] theorem raiseError_ksv (c : ErrorCause) (s : State) : (raiseError c s).ksv = s.ksv := by
  unfold raiseError; split <;> simp

@[simp] theorem raiseError_requests (c : ErrorCause) (s : State) : (raiseError c s).requests = s.requests := by
  unfold raiseError; split <;> simp

@[simp] theorem raiseError_responses (c : ErrorCause) (s : State) : (raiseError c s).responses = s.responses := by
  unfold raiseError; split <;> simp

/-! ## Clearing an error (60_exceptions.md R226) -/

@[simp] theorem clearError_keyb (s : State) : (clearError s).keyb = s.keyb := rfl
@[simp] theorem clearError_rk (s : State) : (clearError s).rk = s.rk := rfl
@[simp] theorem clearError_db (s : State) : (clearError s).db = s.db := rfl
@[simp] theorem clearError_ksv (s : State) : (clearError s).ksv = s.ksv := rfl
@[simp] theorem clearError_err (s : State) : (clearError s).err = false := rfl
@[simp] theorem clearError_errcode (s : State) : (clearError s).errcode = 0 := rfl
@[simp] theorem clearError_requests (s : State) : (clearError s).requests = s.requests := rfl
@[simp] theorem clearError_responses (s : State) : (clearError s).responses = s.responses := rfl

/-! ## The key register (20_memory.md R55) -/

/-- A byte of KEYB after a key write: byte a of KEYB belongs to register KEY(a div 4), and its place in the word is a mod 4 from the
most significant end. -/
theorem keyWrite_get (k : Vector Byte 16) (n : Fin 4) (v : Word) (a : Nat) (ha : a < 16) :
    (keyWrite k n v)[a] = if a / 4 = n.val then byteAt (3 - a % 4) v else k[a] := by
  have hm : a % 4 < 4 := Nat.mod_lt _ (by decide)
  by_cases h : a / 4 = n.val
  · have hn : a = 4 * n.val + a % 4 := by omega
    rw [if_pos h]
    unfold keyWrite
    simp only [Vector.getElem_set]
    generalize a % 4 = p at hm hn
    subst hn
    interval_cases p <;> simp
  · rw [if_neg h]
    unfold keyWrite
    simp only [Vector.getElem_set]
    split_ifs <;> first | rfl | omega

/-- KEYn reads as the value last written to it. -/
theorem keyRead_keyWrite_same (k : Vector Byte 16) (n : Fin 4) (v : Word) : keyRead (keyWrite k n v) n = v := by
  have hd : ∀ p, p < 4 → (4 * n.val + p) / 4 = n.val := fun p hp => by omega
  have hm : ∀ p, p < 4 → (4 * n.val + p) % 4 = p := fun p hp => by omega
  have h0 : 4 * n.val / 4 = n.val := by omega
  simp [keyRead, keyWrite_get, hd, hm, h0]

/-- A key write leaves the other key registers alone. -/
theorem keyRead_keyWrite_other (k : Vector Byte 16) {n m : Fin 4} (v : Word) (h : n ≠ m) :
    keyRead (keyWrite k n v) m = keyRead k m := by
  have hb : ∀ p, (hp : p < 4) → (keyWrite k n v)[4 * m.val + p] = k[4 * m.val + p] := fun p hp => by
    rw [keyWrite_get, if_neg fun e => h (Fin.ext (by omega))]
  rw [keyRead, keyRead, hb 1 (by omega), hb 2 (by omega), hb 3 (by omega)]
  rw [show (keyWrite k n v)[4 * m.val] = k[4 * m.val] from hb 0 (by omega)]

/-! ## Round-key order (10_state.md R24) -/

/-- rk_dec[i] = RK[31-i]. -/
theorem rkDec_get (s : State) {i : Nat} (h : i < 32) : (rkDec s)[i] = s.rk[31 - i] := by simp [rkDec]

/-- As lists, rk_dec is rk_enc reversed. -/
theorem rkDec_toList (s : State) : (rkDec s).toList = s.rk.toList.reverse := by
  apply List.ext_getElem
  · simp
  · intro i h1 h2
    simp at h1
    simp [rkDec]

/-! ## The block transform's frame (43_scalar_engine.md R162) -/

theorem cryptBlock_db (b : Nat) (rk : Vector Word 32) (s : State) :
    (cryptBlock b rk s).db = storeBlock s.db b (blockF (loadBlock s.db b) rk) := setDb_db s _
@[simp] theorem cryptBlock_keyb (b : Nat) (rk : Vector Word 32) (s : State) : (cryptBlock b rk s).keyb = s.keyb := setDb_keyb s _
@[simp] theorem cryptBlock_rk (b : Nat) (rk : Vector Word 32) (s : State) : (cryptBlock b rk s).rk = s.rk := setDb_rk s _
@[simp] theorem cryptBlock_ksv (b : Nat) (rk : Vector Word 32) (s : State) : (cryptBlock b rk s).ksv = s.ksv := setDb_ksv s _
@[simp] theorem cryptBlock_err (b : Nat) (rk : Vector Word 32) (s : State) : (cryptBlock b rk s).err = s.err := setDb_err s _
@[simp] theorem cryptBlock_errcode (b : Nat) (rk : Vector Word 32) (s : State) : (cryptBlock b rk s).errcode = s.errcode := setDb_errcode s _
@[simp] theorem cryptBlock_requests (b : Nat) (rk : Vector Word 32) (s : State) : (cryptBlock b rk s).requests = s.requests := setDb_requests s _
@[simp] theorem cryptBlock_responses (b : Nat) (rk : Vector Word 32) (s : State) : (cryptBlock b rk s).responses = s.responses := setDb_responses s _

/-- The round-key sequences depend on RK only. -/
@[simp] theorem rkEnc_setDb (s : State) (m : Memory) : rkEnc (s.setDb m) = rkEnc s := rfl
@[simp] theorem rkDec_setDb (s : State) (m : Memory) : rkDec (s.setDb m) = rkDec s := rfl

/-! ## What the commands' shared forms can do -/

/-- ENC1 and DEC1 (43_scalar_engine.md R162): the block transform, NO_KEY, or the stop on a block index that no word encodes. -/
theorem scalarCommand_next {b : Nat} {rk : Vector Word 32} {s t : State} (h : scalarCommand b rk s = .next t) :
    b < 8 ∧ (s.ksv = true ∧ t = cryptBlock b rk s ∨ s.ksv = false ∧ t = raiseError .noKey s) := by
  unfold scalarCommand at h
  split_ifs at h with hb hk
  · exact ⟨hb, .inl ⟨hk, by simpa using h.symm⟩⟩
  · exact ⟨hb, .inr ⟨by simpa using hk, by simpa using h.symm⟩⟩

/-- ENC8 and DEC8 (44_vector_engine.md R184): all eight blocks, or NO_KEY. -/
theorem vectorCommand_next {rk : Vector Word 32} {s t : State} (h : vectorCommand rk s = .next t) :
    s.ksv = true ∧ t = s.setDb (storeLaneBlock s.db (blockF8 (loadLaneBlock s.db) rk)) ∨
      s.ksv = false ∧ t = raiseError .noKey s := by
  unfold vectorCommand at h
  split_ifs at h with hk
  · exact .inl ⟨hk, by simpa using h.symm⟩
  · exact .inr ⟨by simpa using hk, by simpa using h.symm⟩

/-- SUB8, TAU8 and TAUK8 (44_vector_engine.md R187): the lane-word transform, or the stop on a word position that no word
encodes. -/
theorem laneWordCommand_next {f : LaneReg → LaneReg} {w : Nat} {s t : State} (h : laneWordCommand f w s = .next t) :
    w < 4 ∧ t = s.setDb (storeLanes s.db w (f (loadLanes s.db w))) := by
  unfold laneWordCommand at h
  split_ifs at h with hw
  exact ⟨hw, by simpa using h.symm⟩

/-- What a command can do when it answers a next state: nothing, KEYEXP's effect, NO_KEY, or a change of the data buffer that
keeps its canonical form. -/
theorem exec_next_cases {i : Instr} {s t : State} (h : exec i s = .next t) :
    i = .nop ∧ t = s ∨
      i = .keyexp ∧ t = (s.setRk (keySchedule (masterKey s.keyb))).setKsv true ∨
      s.ksv = false ∧ t = raiseError .noKey s ∧ (i = .enc8 ∨ i = .dec8 ∨ ∃ b, i = .enc1 b ∨ i = .dec1 b) ∨
      i ≠ .nop ∧ i ≠ .keyexp ∧ ∃ m, t = s.setDb m ∧ (s.db.wf = true → m.wf = true) := by
  cases i with
  | nop => exact .inl ⟨rfl, by simpa [exec, execNop] using h.symm⟩
  | keyexp => exact .inr (.inl ⟨rfl, by simpa [exec, execKeyexp] using h.symm⟩)
  | enc1 b =>
    change scalarCommand b (rkEnc s) s = .next t at h
    obtain ⟨hb, ⟨-, rfl⟩ | ⟨hk, rfl⟩⟩ := scalarCommand_next h
    · exact .inr (.inr (.inr ⟨by simp, by simp, storeBlock _ _ _, rfl, fun hw => wf_storeBlock hw hb _⟩))
    · exact .inr (.inr (.inl ⟨hk, rfl, .inr (.inr ⟨b, .inl rfl⟩)⟩))
  | dec1 b =>
    change scalarCommand b (rkDec s) s = .next t at h
    obtain ⟨hb, ⟨-, rfl⟩ | ⟨hk, rfl⟩⟩ := scalarCommand_next h
    · exact .inr (.inr (.inr ⟨by simp, by simp, storeBlock _ _ _, rfl, fun hw => wf_storeBlock hw hb _⟩))
    · exact .inr (.inr (.inl ⟨hk, rfl, .inr (.inr ⟨b, .inr rfl⟩)⟩))
  | enc8 =>
    change vectorCommand (rkEnc s) s = .next t at h
    obtain ⟨-, rfl⟩ | ⟨hk, rfl⟩ := vectorCommand_next h
    · exact .inr (.inr (.inr ⟨by simp, by simp, _, rfl, fun hw => wf_storeLaneBlock hw _⟩))
    · exact .inr (.inr (.inl ⟨hk, rfl, .inl rfl⟩))
  | dec8 =>
    change vectorCommand (rkDec s) s = .next t at h
    obtain ⟨-, rfl⟩ | ⟨hk, rfl⟩ := vectorCommand_next h
    · exact .inr (.inr (.inr ⟨by simp, by simp, _, rfl, fun hw => wf_storeLaneBlock hw _⟩))
    · exact .inr (.inr (.inl ⟨hk, rfl, .inr (.inl rfl)⟩))
  | sub8 w =>
    change laneWordCommand gather8 w s = .next t at h
    obtain ⟨hw, rfl⟩ := laneWordCommand_next h
    exact .inr (.inr (.inr ⟨by simp, by simp, _, rfl, fun hm => wf_storeLanes hm hw _⟩))
  | tau8 w =>
    change laneWordCommand (fun v => diffusionL8 (gather8 v)) w s = .next t at h
    obtain ⟨hw, rfl⟩ := laneWordCommand_next h
    exact .inr (.inr (.inr ⟨by simp, by simp, _, rfl, fun hm => wf_storeLanes hm hw _⟩))
  | tauk8 w =>
    change laneWordCommand (fun v => diffusionL'8 (gather8 v)) w s = .next t at h
    obtain ⟨hw, rfl⟩ := laneWordCommand_next h
    exact .inr (.inr (.inr ⟨by simp, by simp, _, rfl, fun hm => wf_storeLanes hm hw _⟩))

/-! ## The commands as equations -/

/-- ENC1 with a key schedule (43_scalar_engine.md R162). -/
theorem exec_enc1_of_ksv {s : State} {b : Nat} (hb : b < 8) (hk : s.ksv = true) :
    exec (.enc1 b) s = .next (cryptBlock b (rkEnc s) s) := by
  simp only [exec, execEnc1, scalarCommand, hb, hk, if_true]

/-- DEC1 with a key schedule (R163). -/
theorem exec_dec1_of_ksv {s : State} {b : Nat} (hb : b < 8) (hk : s.ksv = true) :
    exec (.dec1 b) s = .next (cryptBlock b (rkDec s) s) := by
  simp only [exec, execDec1, scalarCommand, hb, hk, if_true]

/-- ENC8 with a key schedule (44_vector_engine.md R184). -/
theorem exec_enc8_of_ksv {s : State} (hk : s.ksv = true) :
    exec .enc8 s = .next (s.setDb (storeLaneBlock s.db (blockF8 (loadLaneBlock s.db) (rkEnc s)))) := by
  simp only [exec, execEnc8, vectorCommand, hk, if_true]

/-- DEC8 with a key schedule (R185). -/
theorem exec_dec8_of_ksv {s : State} (hk : s.ksv = true) :
    exec .dec8 s = .next (s.setDb (storeLaneBlock s.db (blockF8 (loadLaneBlock s.db) (rkDec s)))) := by
  simp only [exec, execDec8, vectorCommand, hk, if_true]

/-! ## What a host access can do -/

/-- A bus error (20_memory.md R57): the record, and for a read a 0 to the host. -/
theorem busError_cases (k : AccessKind) (s : State) :
    busError k s = raiseError .bus s ∨ busError k s = (raiseError .bus s).respond 0 := by
  cases k
  · exact .inr rfl
  · exact .inl rfl

/-- A bus error's frame (20_memory.md R57): nothing but the error record, and for a read the response. -/
theorem busError_frame (k : AccessKind) (s : State) :
    (busError k s).keyb = s.keyb ∧ (busError k s).rk = s.rk ∧ (busError k s).db = s.db ∧ (busError k s).ksv = s.ksv ∧
      (busError k s).err = true ∧ (busError k s).errcode = (if s.err then s.errcode else 3) ∧
      (busError k s).requests = s.requests ∧
      ((busError k s).responses = s.responses ∨ (busError k s).responses = s.responses ++ [0]) := by
  cases k <;> simp [busError, raiseError_errcode, ErrorCause.code]

/-- What a CMD write can do (30_encoding.md R75): be dropped, record ILLEGAL_CMD, or perform the decoded command. -/
theorem writeCmd_next {c : Word} {s t : State} (h : writeCmd c s = .next t) :
    s.err = true ∧ t = s ∨
      s.err = false ∧ (∃ r, decode c = .error r) ∧ t = raiseError .illegalCmd s ∨
      s.err = false ∧ ∃ i, decode c = .ok i ∧ exec i s = .next t := by
  unfold writeCmd at h
  split_ifs at h with he
  · exact .inl ⟨he, by simpa using h.symm⟩
  · have he' : s.err = false := by simpa using he
    split at h
    · exact .inr (.inr ⟨he', _, by assumption, h⟩)
    · exact .inr (.inl ⟨he', ⟨_, by assumption⟩, by simpa using h.symm⟩)

/-- What a host access can do (45_control_and_host_access.md R207): a bus error, a read, or a write of one kind of register. -/
theorem hostStep_next {a : Access} {s t : State} (h : hostStep a s = .next t) :
    (a.target = none ∨ a.kind = .write ∧ ∃ i, a.target = some (.rk i)) ∧ t = busError a.kind s ∨
      (∃ r, a.target = some r ∧ a.kind = .read ∧ t = s.respond (readReg r s)) ∨
      (a.target = some .cmd ∧ a.kind = .write ∧ writeCmd a.data s = .next t) ∨
      (a.target = some .status ∧ a.kind = .write ∧ t = writeStatus a.data s) ∨
      (∃ n, a.target = some (.key n) ∧ a.kind = .write ∧ t = writeKey n a.data s) ∨
      ∃ n, a.target = some (.dbuf n) ∧ a.kind = .write ∧ t = writeDbuf n a.data s := by
  unfold hostStep at h
  split at h
  · next ht => exact .inl ⟨.inl ht, by simpa using h.symm⟩
  · next r ht =>
    split at h
    · next hk => exact .inr (.inl ⟨r, ht, hk, by simpa using h.symm⟩)
    · next hk =>
      cases r with
      | cmd => exact .inr (.inr (.inl ⟨ht, hk, h⟩))
      | status => exact .inr (.inr (.inr (.inl ⟨ht, hk, by simpa [writeReg] using h.symm⟩)))
      | key n => exact .inr (.inr (.inr (.inr (.inl ⟨n, ht, hk, by simpa [writeReg] using h.symm⟩))))
      | rk i => exact .inl ⟨.inr ⟨hk, i, ht⟩, by rw [hk]; simpa [writeReg] using h.symm⟩
      | dbuf n => exact .inr (.inr (.inr (.inr (.inr ⟨n, ht, hk, by simpa [writeReg] using h.symm⟩))))

/-- What a step can do: nothing (no event), a reset, or the host access that is first in the requests. -/
theorem serveNext_next {s t : State} (h : serveNext s = .next t) :
    s.requests = [] ∧ t = s ∨
      ∃ rest, s.requests = .reset :: rest ∧ t = applyReset (s.setRequests rest) ∨
        ∃ a, s.requests = .access a :: rest ∧ hostStep a (s.setRequests rest) = .next t := by
  unfold serveNext at h
  split at h
  · next hr => exact .inl ⟨hr, by simpa using h.symm⟩
  · next e rest hr =>
    cases e with
    | reset => exact .inr ⟨rest, .inl ⟨hr, by simpa [handleEvent] using h.symm⟩⟩
    | access a => exact .inr ⟨rest, .inr ⟨a, hr, h⟩⟩

end Sys2Proof.Machine
end

