-- ==== Sys2Proof/Laws/PerInstr.lean ====
section
/-! SUPPORT. Per-instruction facts about commands as syntax. Family EncodeRow: a well-formed command's word selects the row of
30_encoding.md R73 that its mnemonic names, and fits it in every fixed bit. -/

namespace Sys2Proof.Laws.EncodeRow

/-- The word of a well-formed command has the fixed bits of its own row. -/
def Statement (i : Instr) : Prop := i.wellFormed = true → encode i &&& (rowOf i).mask = (rowOf i).pattern

theorem nop : Statement .nop := fun _ => by decide

theorem keyexp : Statement .keyexp := fun _ => by decide

theorem enc1 (b : Nat) : Statement (.enc1 b) := fun h => by
  have hb : b < 8 := by simpa [Instr.wellFormed, wfBlock] using h
  interval_cases b <;> decide

theorem dec1 (b : Nat) : Statement (.dec1 b) := fun h => by
  have hb : b < 8 := by simpa [Instr.wellFormed, wfBlock] using h
  interval_cases b <;> decide

theorem enc8 : Statement .enc8 := fun _ => by decide

theorem dec8 : Statement .dec8 := fun _ => by decide

theorem sub8 (w : Nat) : Statement (.sub8 w) := fun h => by
  have hw : w < 4 := by simpa [Instr.wellFormed, wfWord] using h
  interval_cases w <;> decide

theorem tau8 (w : Nat) : Statement (.tau8 w) := fun h => by
  have hw : w < 4 := by simpa [Instr.wellFormed, wfWord] using h
  interval_cases w <;> decide

theorem tauk8 (w : Nat) : Statement (.tauk8 w) := fun h => by
  have hw : w < 4 := by simpa [Instr.wellFormed, wfWord] using h
  interval_cases w <;> decide

end Sys2Proof.Laws.EncodeRow
end

