-- ==== Sys2Proof/Tests/Slice0.lean ====
section
/-! SUPPORT. The author's own tests: ill-formed terms refused, words written out from 30_encoding.md, single commands and accesses
on the values of 95_test_vectors.md, and for each statement with hypotheses a concrete case that meets them. -/

namespace Sys2Proof.Tests

open Sys2Proof.Machine Sys2Proof.Safety

/-! ## Helpers -/

/-- The next state of an outcome, if it is one. -/
def stateOf (o : Host.Outcome State Fault Refusal) : Option State :=
  match o with
  | .next s => some s
  | .fault _ => none
  | .refused _ => none

theorem next_of_stateOf {o : Host.Outcome State Fault Refusal} {s : State} (h : stateOf o = some s) : o = .next s := by
  cases o <;> simp_all [stateOf]

/-- The reset state with one access to come. -/
def asked (a : Access) : State := State.reset.setRequests [.access a]

/-- The reset state with KSV = 1 and one access to come. -/
def askedKeyed (a : Access) : State := (asked a).setKsv true

/-- The reset state with error NO_KEY recorded and one access to come. -/
def askedFailed (a : Access) : State := (asked a).setError true 2

/-- The known-answer key and plaintext (V1). -/
def katBlock : Block := ⟨0x01234567, 0x89ABCDEF, 0xFEDCBA98, 0x76543210⟩

/-- The known-answer ciphertext (V1). -/
def katCipher : Block := ⟨0x681EDF34, 0xD206965E, 0x86B3E94F, 0x536E4246⟩

/-- KEYB of the known-answer key (10_state.md R21). -/
def katKeyb : Vector Byte 16 :=
  #v[0x01, 0x23, 0x45, 0x67, 0x89, 0xAB, 0xCD, 0xEF, 0xFE, 0xDC, 0xBA, 0x98, 0x76, 0x54, 0x32, 0x10]

/-- The known-answer key expanded, and a data buffer. -/
def katState (m : Memory) : State := (((State.reset.setKeyb katKeyb).setRk (keySchedule katBlock)).setKsv true).setDb m

/-- The bytes 00, 01, .., 7F of V22. -/
def countingDb : Memory := (List.range 127).map fun a => (a + 1, BitVec.ofNat 8 (a + 1))

/-- The lanes of V30. -/
def lanesIn : Vector Word 8 :=
  #v[0x00000000, 0x01020304, 0xFFFFFFFF, 0x80808080, 0x0123ABCD, 0xDEADBEEF, 0x10203040, 0x7F7F7F7F]

/-- The lanes of V30 at one word position. -/
def lanesState (w : Nat) : State := State.reset.setDb (storeLanes [] w (ofLanes fun j => lanesIn[j]!))

/-- The eight words at a word position. -/
def wordsAt (w : Nat) (s : State) : List Word := (List.range 8).map fun j => memRead s.db (wordAddr j w)

/-! ## Ill-formed terms are refused (30_encoding.md R78) -/

theorem test_wf_refuses_enc1_eight : (Instr.enc1 8).wellFormed = false := by decide
theorem test_wf_refuses_dec1_eight : (Instr.dec1 8).wellFormed = false := by decide
theorem test_wf_refuses_sub8_four : (Instr.sub8 4).wellFormed = false := by decide
theorem test_wf_refuses_tau8_four : (Instr.tau8 4).wellFormed = false := by decide
theorem test_wf_refuses_tauk8_four : (Instr.tauk8 4).wellFormed = false := by decide
theorem test_wf_takes_the_last_operands :
    (Instr.enc1 7).wellFormed ∧ (Instr.dec1 7).wellFormed ∧ (Instr.sub8 3).wellFormed ∧ (Instr.tau8 3).wellFormed ∧
      (Instr.tauk8 3).wellFormed := by decide

/-! ## Words written out bit by bit from R73, one for each command, and V50 -/

theorem test_decode_nop : decode 0b00000000000000000000000000000000 = .ok .nop := by decide
theorem test_decode_keyexp : decode 0b00000000000000000000000000000001 = .ok .keyexp := by decide
theorem test_decode_enc1 : decode 0b00000000000000000000000011100010 = .ok (.enc1 7) := by decide
theorem test_decode_dec1 : decode 0b00000000000000000000000011010010 = .ok (.dec1 6) := by decide
theorem test_decode_enc8 : decode 0b00000000000000000000000000000011 = .ok .enc8 := by decide
theorem test_decode_dec8 : decode 0b00000000000000000000000000010011 = .ok .dec8 := by decide
theorem test_decode_sub8 : decode 0b00000000000000000000001100000100 = .ok (.sub8 3) := by decide
theorem test_decode_tau8 : decode 0b00000000000000000000010100000100 = .ok (.tau8 1) := by decide
theorem test_decode_tauk8 : decode 0b00000000000000000000101100000100 = .ok (.tauk8 3) := by decide

/-- The illegal words of V50. -/
theorem test_decode_refuses_v50 :
    [0x00000005, 0x0000000F, 0x00000011, 0x00000010, 0x00000021, 0x00000023, 0x00000033, 0x00000102, 0x00001002,
      0x00000014, 0x00000024, 0x00000C04, 0x80000000, 0xFFFFFFFF, 0x00001004, 0x08000000].all
      (fun c : Word => (decode c).toOption.isNone) = true := by decide

theorem test_decode_names_its_refusals :
    decode 0x00000005 = .error .reservedOp ∧ decode 0x00000C04 = .error .reservedFn ∧
      decode 0x00000023 = .error .fieldNotZero := by decide

/-- The words of the examples of R78. -/
theorem test_encode_examples :
    encode (.enc1 3) = 0x62 ∧ encode (.dec1 7) = 0xF2 ∧ encode (.tau8 2) = 0x604 ∧ encode (.tauk8 3) = 0xB04 := by decide

theorem test_decodeTableWord : decodeTableWord 32 0x000000F2 = some (.dec1 7) ∧ decodeTableWord 32 0x10 = none := by decide

/-! ## Tables and primitives (V33, V34) -/

theorem test_tables :
    sbox 0x00 = 0xD6 ∧ sbox 0x01 = 0x90 ∧ sbox 0x7F = 0x9E ∧ sbox 0x80 = 0xEA ∧ sbox 0xFF = 0x48 ∧
      sbox32 0xEF = 0x00000084 ∧ fk.x0 = 0xA3B1BAC6 ∧ ck[0] = 0x00070E15 ∧ ck[1] = 0x1C232A31 ∧ ck[31] = 0x646B7279 := by
  decide

theorem test_primitives :
    rotl 0x01234567 2 = 0x048D159C ∧ rotl 0x01234567 13 = 0x68ACE024 ∧ substituteWord 0x01234567 = 0x90F473A2 ∧
      diffusionL 0x00000001 = 0x01040405 ∧ diffusionL' 0x00000001 = 0x00802001 ∧ transformT 0x9A3F00C4 = 0x82B90CD0 ∧
      transformT' 0x9A3F00C4 = 0xB5E8E384 := by decide

/-! ## Commands (V1, V2, V3, V12, V20 to V22, V30 to V32) -/

/-- NOP by its word, after reset. -/
theorem test_nop : step (State.reset.withFetchWord 32 0x00000000) = .next State.reset :=
  next_of_stateOf (by decide)

/-- V2: the first and last round keys of the known-answer key. -/
theorem test_keyexp :
    (stateOf (execKeyexp (State.reset.setKeyb katKeyb))).map (fun t => (t.rk[0], t.rk[1], t.rk[31], t.ksv)) =
      some (0xF12186F9, 0x41662B61, 0x9124A012, true) := by decide

set_option maxRecDepth 20000 in
/-- V1 in block 5, and the block before it unchanged. -/
theorem test_enc1 :
    (stateOf (execEnc1 5 (katState (storeBlock (storeBlock [] 4 katBlock) 5 katBlock)))).map
      (fun t => (loadBlock t.db 5, loadBlock t.db 4)) = some (katCipher, katBlock) := by decide

/-- 43_scalar_engine.md R162: NO_KEY after reset, STATUS 0x22 (95_test_vectors.md P4 line 2). -/
theorem test_enc1_without_key :
    (stateOf (step (State.reset.withFetchWord 32 0x00000002))).map statusWord = some 0x00000022 := by decide

set_option maxRecDepth 20000 in
/-- V3 in block 7. -/
theorem test_dec1 :
    (stateOf (execDec1 7 (katState (storeBlock [] 7 katCipher)))).map (fun t => loadBlock t.db 7) = some katBlock := by decide

set_option maxRecDepth 20000 in
/-- V22, blocks 0 and 5. -/
theorem test_enc8 :
    (stateOf (execEnc8 (katState countingDb))).map (fun t => (loadBlock t.db 0, loadBlock t.db 5)) =
      some (⟨0x06989C61, 0x3DA668AD, 0x2A8DF782, 0xE1A8F96A⟩, ⟨0x0C2C0FAB, 0x0B4E22EE, 0x8DE3028B, 0x161A7C37⟩) := by
  decide

set_option maxRecDepth 20000 in
/-- V3 in blocks 0 and 7 (R185). -/
theorem test_dec8 :
    (stateOf (execDec8 (katState (storeBlock (storeBlock [] 0 katCipher) 7 katCipher)))).map
      (fun t => (loadBlock t.db 0, loadBlock t.db 7)) = some (katBlock, katBlock) := by decide

/-- V30, and a word position beside it unchanged. -/
theorem test_sub8 :
    (stateOf (execSub8 0 (lanesState 0))).map (fun t => (wordsAt 0 t, memRead t.db (wordAddr 3 1))) =
      some ([0xD6D6D6D6, 0x90E9FECC, 0x48484848, 0xEAEAEAEA, 0x90F4AB10, 0xB4535B84, 0x2B9CE447, 0x9E9E9E9E], 0) := by decide

/-- V31. -/
theorem test_tau8 :
    (stateOf (execTau8 1 (lanesState 1))).map (wordsAt 1) =
      some [0x5B5B5B5B, 0x43179DE4, 0x21212121, 0xABABABAB, 0xBD58F268, 0xC2D6A551, 0x20495B62, 0x7A7A7A7A] := by decide

/-- V32. -/
theorem test_tauk8 :
    (stateOf (execTauk8 3 (lanesState 3))).map (wordsAt 3) =
      some [0x67676767, 0xC978182E, 0x65656565, 0xC2C2C2C2, 0x8DDEC35B, 0x1D79E4A3, 0x9481CF46, 0x02020202] := by decide

/-- An operand that no word encodes stops by name (log 4). -/
theorem test_ill_formed_stops :
    execEnc1 8 State.reset = .fault .noSuchBlock ∧ execSub8 4 State.reset = .fault .noSuchLaneWord := ⟨rfl, rfl⟩

/-! ## Host access (45_control_and_host_access.md, 20_memory.md) -/

/-- R202's worked example. -/
theorem test_key_write :
    (stateOf (step (askedKeyed ⟨.write, 0x010, 32, 0x01234567⟩))).map
      (fun t => (t.keyb[0], t.keyb[1], t.keyb[2], t.keyb[3], t.ksv)) = some (0x01, 0x23, 0x45, 0x67, false) := by decide

/-- R203's worked example. -/
theorem test_data_write :
    (stateOf (step (asked ⟨.write, 0x114, 32, 0xDEADBEEF⟩))).map (fun t => t.db) =
      some [(20, 0xDE), (21, 0xAD), (22, 0xBE), (23, 0xEF)] := by decide

/-- R204's worked example, and bit 1 alone counts. -/
theorem test_status_write :
    (stateOf (step (askedFailed ⟨.write, 0x004, 32, 0x00000002⟩))).map statusWord = some 0 ∧
      (stateOf (step (askedFailed ⟨.write, 0x004, 32, 0xFFFFFFFD⟩))).map statusWord = some 0x22 := by decide

/-- 95_test_vectors.md P4: a refused RK write, a misaligned read and a byte write record BUS, STATUS 0x33 with KSV = 1. -/
theorem test_bus_errors :
    (stateOf (step (askedKeyed ⟨.write, 0x080, 32, 0x12345678⟩))).map statusWord = some 0x33 ∧
      (stateOf (step (askedKeyed ⟨.read, 0x102, 32, 0⟩))).map (fun t => (statusWord t, t.responses)) = some (0x33, [0]) ∧
      (stateOf (step (askedKeyed ⟨.write, 0x100, 8, 0xAB⟩))).map (fun t => (statusWord t, t.db)) = some (0x33, []) := by decide

/-- The registers at the edges of each range of R52, and the offsets beside them. -/
theorem test_register_map :
    regAt 0x01C = some (.key 3) ∧ regAt 0x0FC = some (.rk 31) ∧ regAt 0x100 = some (.dbuf 0) ∧
      regAt 0x17C = some (.dbuf 31) ∧ regAt 0x008 = none ∧ regAt 0x020 = none ∧ regAt 0x07C = none ∧ regAt 0x180 = none ∧
      regAt 0x1FC = none ∧ regAt 0x011 = none := by decide

/-- Reading program text (R78, R79; log 12). -/
theorem test_read_line :
    readLine "wr DBUF31, 0x7c7d7E7F ; last".toList = some [.wr (.dbuf 31) 0x7C7D7E7F] ∧
      readLine "rd STATUS == 51".toList = some [.rdEq .status 0x33] ∧ readLine "TAU8 3".toList = some [.command (.tau8 3)] ∧
      readLine "stblk 0x7".toList = some (Pseudo.stblk 7).expand ∧ readLine "stblk 8".toList = none ∧
      readLine "clrerr".toList = some [.wr .status 2] ∧ readLine "; only a comment".toList = some [] ∧
      readLine "wr KEY4, 0".toList = none := by decide

/-- The parameters of R6 are the sizes the model is built with. -/
theorem test_parameters :
    State.reset.keyb.size = Config.keyBytes ∧ State.reset.rk.size = Config.nRk ∧ ck.size = Config.rounds ∧
      Config.dbBytes = Config.blockBytes * Config.dbufBlocks ∧ Config.windowBytes = 2 ^ Config.offsetBits := by decide

/-! ## Hypotheses met: commands -/

theorem test_hyp_DecodeAndEncodeAgree :
    ((Instr.enc1 7).wellFormed = true ∧ (Instr.tauk8 3).wellFormed = true) ∧
      decode 0xE2 = .ok (.enc1 7) ∧ decode 0xB04 = .ok (.tauk8 3) := by decide

theorem test_hyp_IllegalWordsAreExactlyThoseListed :
    (asked (cmdAccess 0x80000000)).requests = .access (cmdAccess 0x80000000) :: [] ∧
      CommandWrite (cmdAccess 0x80000000) 0x80000000 ∧ decode 0x80000000 = .error .fieldNotZero ∧
      (asked (cmdAccess 0x80000000)).err = false := by decide

theorem test_hyp_StepRunsTheDecodedCommand :
    (asked (cmdAccess 0xF2)).requests = .access (cmdAccess 0xF2) :: [] ∧ CommandWrite (cmdAccess 0xF2) 0xF2 ∧
      (asked (cmdAccess 0xF2)).err = false ∧ decode 0xF2 = .ok (.dec1 7) := by decide

theorem test_hyp_CommandWriteIsDroppedRejectedOrPerformed :
    ((askedFailed (cmdAccess 1)).requests = .access (cmdAccess 1) :: [] ∧ (askedFailed (cmdAccess 1)).err = true) ∧
      ((asked (cmdAccess 5)).err = false ∧ ∀ r ∈ opcodeRows, (0x00000005 : Word) &&& r.mask ≠ r.pattern) ∧
      (asked (cmdAccess 0xE2)).err = false ∧ rowEnc1 ∈ opcodeRows ∧ (0x000000E2 : Word) &&& rowEnc1.mask = rowEnc1.pattern := by
  refine ⟨by decide, by decide, by decide, by simp [opcodeRows], by decide⟩

theorem test_hyp_IllFormedOperandsStopByName : 8 ≤ 8 ∧ 4 ≤ 4 ∧ decode 0xE2 = .ok (.enc1 7) := by decide

theorem test_hyp_EveryStepHasANextState : State.reset.requests = [] := by decide

theorem test_hyp_NopChangesNothing :
    ((0x00000010 : Word).extractLsb' 0 4 = 0 ∧ (0x00000010 : Word) ≠ 0) ∧
      (askedFailed (cmdAccess 0)).requests = .access (cmdAccess 0) :: [] ∧ CommandWrite (cmdAccess 0) 0x00000000 := by decide

/-- Also the hypotheses of `RunsOnItsWords` for this row. -/
theorem test_hyp_KeyexpWritesTheKeySchedule :
    ((0x00000011 : Word).extractLsb' 0 4 = 1 ∧ (0x00000011 : Word) ≠ 1) ∧
      (asked (cmdAccess 1)).requests = .access (cmdAccess 1) :: [] ∧ CommandWrite (cmdAccess 1) 1 ∧
      (1 : Word) &&& 0xFFFFFFFF = 0x00000001 := by decide

theorem test_hyp_RotlMovesEachBitLeft : (0 < 1 ∧ 1 < 32) ∧ 0 < 31 ∧ 31 < 32 := by decide

theorem test_hyp_DiffusionLayersAreLinearAndByteSymmetric : (0 < 1 ∧ 1 < 4) ∧ 0 < 3 ∧ 3 < 4 := by decide

theorem test_hyp_Enc1TransformsItsBlock :
    (7 < 8 ∧ (katState countingDb).ksv = true ∧ CanonicalDb (katState countingDb)) ∧ State.reset.ksv = false ∧
      (asked (cmdAccess 0xE2)).requests = .access (cmdAccess 0xE2) :: [] ∧ CommandWrite (cmdAccess 0xE2) 0xE2 ∧
      (0x000000E2 : Word) &&& 0xFFFFFF1F = 0x00000002 := by decide

theorem test_hyp_Dec1TransformsItsBlock :
    (7 < 8 ∧ (katState countingDb).ksv = true ∧ CanonicalDb (katState countingDb)) ∧ State.reset.ksv = false ∧
      (asked (cmdAccess 0xF2)).requests = .access (cmdAccess 0xF2) :: [] ∧ CommandWrite (cmdAccess 0xF2) 0xF2 ∧
      (0x000000F2 : Word) &&& 0xFFFFFF1F = 0x00000012 := by decide

theorem test_hyp_Enc8TransformsAllBlocks :
    ((katState countingDb).ksv = true ∧ CanonicalDb (katState countingDb) ∧ 128 ≤ 128 ∧ 7 < 8 ∧
      [7, 6, 5, 4, 3, 2, 1, 0].Perm [0, 1, 2, 3, 4, 5, 6, 7]) ∧ State.reset.ksv = false ∧
      (asked (cmdAccess 3)).requests = .access (cmdAccess 3) :: [] ∧ CommandWrite (cmdAccess 3) 3 ∧
      (3 : Word) &&& 0xFFFFFFFF = 0x00000003 := by decide

theorem test_hyp_Dec8TransformsAllBlocks :
    ((katState countingDb).ksv = true ∧ CanonicalDb (katState countingDb) ∧ 128 ≤ 128 ∧ 7 < 8 ∧
      [7, 6, 5, 4, 3, 2, 1, 0].Perm [0, 1, 2, 3, 4, 5, 6, 7]) ∧ State.reset.ksv = false ∧
      (asked (cmdAccess 0x13)).requests = .access (cmdAccess 0x13) :: [] ∧ CommandWrite (cmdAccess 0x13) 0x13 ∧
      (0x13 : Word) &&& 0xFFFFFFFF = 0x00000013 := by decide

theorem test_hyp_EncryptCommandUndoesDecryptCommand :
    CanonicalDb (katState countingDb) ∧ (katState countingDb).ksv = true ∧ 7 < 8 := by decide

set_option maxRecDepth 20000 in
/-- Two states that differ in block 0 only; the command is SUB8 3, the block 7. -/
theorem test_hyp_BlocksAreTransformedIndependently :
    7 < 8 ∧ CanonicalDb (katState countingDb) ∧ CanonicalDb (katState (storeBlock countingDb 0 katBlock)) ∧
      (katState countingDb).ksv = (katState (storeBlock countingDb 0 katBlock)).ksv ∧
      (katState countingDb).rk = (katState (storeBlock countingDb 0 katBlock)).rk ∧
      loadBlock (katState countingDb).db 7 = loadBlock (katState (storeBlock countingDb 0 katBlock)).db 7 ∧
      (stateOf (exec (.sub8 3) (katState countingDb))).isSome ∧
      (stateOf (exec (.sub8 3) (katState (storeBlock countingDb 0 katBlock)))).isSome := by
  refine ⟨by decide, by decide, by decide, rfl, rfl, by decide, rfl, rfl⟩

theorem test_hyp_Sub8SubstitutesItsLaneWord :
    (3 < 4 ∧ CanonicalDb (lanesState 3) ∧ ∀ j, j < 8 → 11 < wordAddr j 3 ∨ wordAddr j 3 + 4 ≤ 11) ∧
      (asked (cmdAccess 0x304)).requests = .access (cmdAccess 0x304) :: [] ∧ CommandWrite (cmdAccess 0x304) 0x304 ∧
      (0x00000304 : Word) &&& 0xFFFFFCFF = 0x00000004 := by decide

theorem test_hyp_Tau8TransformsItsLaneWord :
    (3 < 4 ∧ CanonicalDb (lanesState 3) ∧ ∀ j, j < 8 → 16 < wordAddr j 3 ∨ wordAddr j 3 + 4 ≤ 16) ∧
      (asked (cmdAccess 0x704)).requests = .access (cmdAccess 0x704) :: [] ∧ CommandWrite (cmdAccess 0x704) 0x704 ∧
      (0x00000704 : Word) &&& 0xFFFFFCFF = 0x00000404 := by decide

theorem test_hyp_Tauk8TransformsItsLaneWord :
    (3 < 4 ∧ CanonicalDb (lanesState 3) ∧ ∀ j, j < 8 → 128 < wordAddr j 3 ∨ wordAddr j 3 + 4 ≤ 128) ∧
      (asked (cmdAccess 0xB04)).requests = .access (cmdAccess 0xB04) :: [] ∧ CommandWrite (cmdAccess 0xB04) 0xB04 ∧
      (0x00000B04 : Word) &&& 0xFFFFFCFF = 0x00000804 := by decide

/-! ## Hypotheses met: lanes and words -/

/-- Lane 7 and bit 31, the last of each (the lane statements range over every lane below 8 and a canonical buffer). -/
theorem test_hyp_LanesArePackedByBlock : Memory.wf countingDb = true ∧ 7 < 8 ∧ 31 < 32 := by decide

theorem test_hyp_LaneOperationsActLaneByLane : 0 < 8 ∧ 7 < 8 := by decide
theorem test_hyp_GatherUnitSubstitutesEachLane : 0 < 8 ∧ 7 < 8 := by decide
theorem test_hyp_VectorEngineEqualsScalarEngine : 0 < 8 ∧ 7 < 8 := by decide
theorem test_hyp_SboxIsABijection : (0 < 4 ∧ 3 < 4) ∧ 0 < 8 ∧ 7 < 8 := by decide
theorem test_hyp_SubstituteWordIsABytewiseBijection : 0 < 4 ∧ 3 < 4 := by decide
theorem test_hyp_CkFollowsItsConstruction : 0 < 32 ∧ 31 < 32 := by decide

/-! ## Hypotheses met: host access -/

theorem test_hyp_ReadReturnsTheRegister :
    (asked ⟨.read, Reg.offset (.dbuf 31), 32, 0⟩).requests = .access ⟨.read, Reg.offset (.dbuf 31), 32, 0⟩ :: [] := by decide

theorem test_hyp_KeyWriteSetsItsWordAndClearsKsv :
    (askedKeyed ⟨.write, 0x01C, 32, 5⟩).requests = .access ⟨.write, BitVec.ofNat 9 (0x010 + 4 * (3 : Fin 4).val), 32, 5⟩ :: [] ∧
      12 / 4 = (3 : Fin 4).val ∧ 11 / 4 ≠ (3 : Fin 4).val := by decide

theorem test_hyp_DataWriteSetsItsWord :
    (asked ⟨.write, 0x17C, 32, 5⟩).requests = .access ⟨.write, BitVec.ofNat 9 (0x100 + 4 * (31 : Fin 32).val), 32, 5⟩ :: [] ∧
      CanonicalDb (asked ⟨.write, 0x17C, 32, 5⟩) ∧ 123 < dbufAddr 31 ∧ dbufAddr 31 + 4 ≤ 128 := by decide

theorem test_hyp_StatusWriteClearsTheError :
    (askedFailed ⟨.write, 0x004, 32, 2⟩).requests = .access ⟨.write, 0x004, 32, 2⟩ :: [] := by decide

theorem test_hyp_RoundKeyWriteIsRefused :
    (asked ⟨.write, 0x0FC, 32, 5⟩).requests = .access ⟨.write, BitVec.ofNat 9 (0x080 + 4 * (31 : Fin 32).val), 32, 5⟩ :: [] ∧
      (asked ⟨.read, 0x080, 32, 0⟩).requests = .access ⟨.read, BitVec.ofNat 9 (0x080 + 4 * (0 : Fin 32).val), 32, 0⟩ :: [] := by
  decide

/-- One access for each ground of a bus error, at the edges; and the accesses beside them that are none. -/
theorem test_hyp_BadAccessesAreBusErrors :
    (∀ o ∈ ([0x101, 0x008, 0x00C, 0x020, 0x07C, 0x180, 0x1FC] : List (BitVec 9)), BusFault ⟨.read, o, 32, 0⟩) ∧
    (∀ o ∈ ([0x080, 0x0FC] : List (BitVec 9)), BusFault ⟨.write, o, 32, 0⟩ ∧ ¬BusFault ⟨.read, o, 32, 0⟩) ∧
    (∀ o ∈ ([0x000, 0x01C, 0x100, 0x17C] : List (BitVec 9)), ¬BusFault ⟨.write, o, 32, 0⟩ ∧ BusFault ⟨.write, o, 8, 0⟩) ∧
    (asked ⟨.read, 0x008, 32, 0⟩).requests = .access ⟨.read, 0x008, 32, 0⟩ :: [] ∧
    (asked ⟨.read, 0x000, 32, 0⟩).requests = .access ⟨.read, 0x000, 32, 0⟩ :: [] :=
  ⟨by decide, by decide, by decide, by decide, by decide⟩

theorem test_hyp_ReadAfterWriteReturnsTheValue :
    CanonicalDb (asked ⟨.write, Reg.offset (.dbuf 31), 32, 5⟩) ∧ ((∃ n, Reg.dbuf 31 = .key n) ∨ ∃ n, Reg.dbuf 31 = .dbuf n) ∧
      (asked ⟨.write, Reg.offset (.dbuf 31), 32, 5⟩).requests = .access ⟨.write, Reg.offset (.dbuf 31), 32, 5⟩ :: [] ∧
      step (asked ⟨.write, Reg.offset (.dbuf 31), 32, 5⟩) = .next (State.reset.setDb [(127, 5)]) ∧
      Reg.dbuf 30 ≠ .dbuf 31 ∧ Reg.dbuf 30 ≠ .status :=
  ⟨by decide, .inr ⟨31, rfl⟩, by decide, next_of_stateOf (by decide), by decide, by decide⟩

theorem test_hyp_WindowIsRelativeToItsBase : windowOffset (Config.sm4reBase + 511) = some 511 := by
  unfold windowOffset
  rw [if_pos ⟨by omega, by simp [Config.windowBytes]⟩, Nat.add_sub_cancel_left]
  rfl

/-! ## Hypotheses met: errors -/

theorem test_hyp_RaisingAnErrorKeepsTheFirst : (askedFailed (cmdAccess 0)).err = true ∧ State.reset.err = false := by decide

/-- With ERR = 1 a bus error and a CMD write; with ERR = 0 one access for each of the five outcomes, of which the first is also an
illegal word and the second comes with KSV = 0, so the order counts. -/
theorem test_hyp_RecordedErrorFollowsThePriority :
    ((askedFailed (cmdAccess 3)).requests = .access (cmdAccess 3) :: [] ∧ (askedFailed (cmdAccess 3)).err = true ∧
      CommandWrite (cmdAccess 3) 3 ∧ BusFault ⟨.write, 0x0FC, 32, 0⟩ ∧
      step (askedFailed (cmdAccess 3)) = .next (State.reset.setError true 2)) ∧
    (∀ a ∈ [⟨.write, 0x000, 8, 5⟩, cmdAccess 0x23, cmdAccess 3, cmdAccess 4, readAccess .status],
      (asked a).requests = .access a :: [] ∧ (asked a).err = false ∧ (asked a).errcode = 0 ∧
        (stateOf (step (asked a))).isSome) ∧
    BusFault ⟨.write, 0x000, 8, 5⟩ ∧
    (¬BusFault (cmdAccess 0x23) ∧ CommandWrite (cmdAccess 0x23) 0x23 ∧ decode 0x23 = .error .fieldNotZero) ∧
    (¬BusFault (cmdAccess 3) ∧ CommandWrite (cmdAccess 3) 3 ∧ decode 3 = .ok .enc8 ∧ needsKey .enc8 = true ∧
      (asked (cmdAccess 3)).ksv = false) ∧
    (¬BusFault (cmdAccess 4) ∧ CommandWrite (cmdAccess 4) 4 ∧ decode 4 = .ok (.sub8 0) ∧
      (needsKey (.sub8 0) = true → (asked (cmdAccess 4)).ksv = true)) ∧
    (¬BusFault (readAccess .status) ∧ ∀ c, ¬CommandWrite (readAccess .status) c) :=
  ⟨⟨by decide, by decide, by decide, by decide, next_of_stateOf (by decide)⟩, by decide, by decide, by decide, by decide,
    by decide, by decide, fun _ h => absurd h.1 (by decide)⟩

/-- A command without a key, and a misaligned read. -/
theorem test_hyp_ErrorsArePrecise :
    ((asked ⟨.read, 0x102, 32, 0⟩).err = false ∧
      step (asked ⟨.read, 0x102, 32, 0⟩) = .next ((State.reset.setError true 3).respond 0)) ∧
    (asked (cmdAccess 3)).err = false ∧ step (asked (cmdAccess 3)) = .next (State.reset.setError true 2) ∧
      (State.reset.setError true 2).err = true :=
  ⟨⟨by decide, next_of_stateOf (by decide)⟩, by decide, next_of_stateOf (by decide), by decide⟩

/-- One access for each clause, all with ERR = 1. -/
theorem test_hyp_CommandsAreDroppedWhileErrorStands :
    ((askedFailed (cmdAccess 1)).err = true ∧ (askedFailed (cmdAccess 1)).requests = .access (cmdAccess 1) :: [] ∧
      CommandWrite (cmdAccess 1) 1) ∧
    (BusFault ⟨.write, 0x080, 32, 0⟩ ∧ BusFault ⟨.read, 0x008, 32, 0⟩) ∧
    Access.target ⟨.read, 0x0FC, 32, 0⟩ = some (.rk 31) ∧ Access.target ⟨.write, 0x01C, 32, 0⟩ = some (.key 3) ∧
    Access.target ⟨.write, 0x17C, 32, 0⟩ = some (.dbuf 31) ∧ Access.target ⟨.write, 0x004, 32, 0⟩ = some .status := by decide

theorem test_hyp_OnlyStatusWriteOrResetClearsAnError :
    (askedFailed ⟨.write, 0x004, 32, 2⟩).err = true ∧
      step (askedFailed ⟨.write, 0x004, 32, 2⟩) = .next State.reset ∧
      (askedFailed ⟨.write, 0x004, 32, 2⟩).requests = .access ⟨.write, 0x004, 32, 2⟩ :: [] ∧
      ClearingWrite ⟨.write, 0x004, 32, 2⟩ := ⟨by decide, next_of_stateOf (by decide), by decide, by decide⟩

/-- A dropped KEYEXP and a STATUS write without bit 1. -/
theorem test_hyp_ErrorStandsUntilItIsCleared :
    let s := (State.reset.setError true 3).setRequests [.access (cmdAccess 1), .access ⟨.write, 0x004, 32, 0xFFFFFFFD⟩]
    RunsTo 2 s (State.reset.setError true 3) ∧ s.err = true ∧
      (0 < 2 ∧ RunsTo 0 s s ∧ CommandWrite (cmdAccess 1) 1) ∧
      ∀ e ∈ s.requests.take 2, e ≠ .reset ∧ ∀ a, e = .access a → ¬ClearingWrite a := by
  refine ⟨⟨_, rfl, _, rfl, rfl⟩, rfl, ⟨by decide, rfl, by decide⟩, ?_⟩
  simp [State.setRequests, ClearingWrite, cmdAccess, Reg.offset]

/-! ## Hypotheses met: who writes what, reset, invariants -/

theorem test_hyp_OnlyKeyexpWritesRoundKeys :
    step (asked (cmdAccess 1)) = .next ((State.reset.setRk (keySchedule (masterKey State.reset.keyb))).setKsv true) ∧
      ((State.reset.setRk (keySchedule (masterKey State.reset.keyb))).setKsv true).rk ≠ (asked (cmdAccess 1)).rk :=
  ⟨rfl, by decide⟩

theorem test_hyp_KsvIsSetByKeyexpAndClearedByKeyWrites :
    ((asked (cmdAccess 1)).ksv = false ∧ (stateOf (step (asked (cmdAccess 1)))).map State.ksv = some true) ∧
      ((askedKeyed ⟨.write, 0x01C, 32, 0⟩).ksv = true ∧
        step (askedKeyed ⟨.write, 0x01C, 32, 0⟩) = .next State.reset ∧ State.reset.ksv = false) ∧
      (0x01C : BitVec 9) = BitVec.ofNat 9 (0x010 + 4 * (3 : Fin 4).val) ∧ CommandWrite (cmdAccess 1) 0x00000001 ∧
      (asked (cmdAccess 1)).err = false ∧ ((State.reset.setRequests [.reset]).requests = .reset :: []) ∧
      needsKey (.enc1 7) = true ∧ (Instr.enc1 7).wellFormed = true ∧ State.reset.ksv = false ∧ State.reset.err = false :=
  ⟨by decide, ⟨by decide, next_of_stateOf (by decide), by decide⟩, by decide, by decide, by decide, by decide, by decide,
    by decide, by decide, by decide⟩

theorem test_hyp_KeyAndDataAreWrittenOnlyByTheirWriters :
    (step (asked ⟨.write, 0x010, 32, 1⟩) = .next (State.reset.setKeyb (State.reset.keyb.set 3 1)) ∧
      State.reset.keyb.set 3 1 ≠ State.reset.keyb) ∧
    (stateOf (step (asked (cmdAccess 4)))).map (fun t => decide (t.db = [])) = some false :=
  ⟨⟨next_of_stateOf (by decide), by decide⟩, by decide⟩

theorem test_hyp_ResetClearsEverything :
    ((katState countingDb).setRequests [.reset, .access (cmdAccess 1)]).requests = .reset :: [.access (cmdAccess 1)] := by decide

/-- The last block, and a run that is no KEYEXP and ends with ERR = 0. -/
theorem test_hyp_AfterResetOnlyKeyexpGivesAKey :
    7 < 8 ∧ RunsTo 1 (State.reset.setRequests [.access (cmdAccess 0)]) State.reset ∧ State.reset.err = false ∧
      ∀ a, .access a ∈ [HostEvent.access (cmdAccess 0)] → ¬CommandWrite a 0x00000001 := by
  refine ⟨by decide, ⟨_, rfl, rfl⟩, by decide, fun a h hc => ?_⟩
  obtain rfl : a = cmdAccess 0 := by simpa using h
  exact absurd hc (by decide)

theorem test_hyp_DataBufferStaysCanonical :
    CanonicalDb (asked ⟨.write, 0x17C, 32, 5⟩) ∧
      step (asked ⟨.write, 0x17C, 32, 5⟩) = .next (State.reset.setDb [(127, 5)]) := ⟨by decide, next_of_stateOf (by decide)⟩

theorem test_hyp_StatusStaysLegal :
    StatusLegal (asked (cmdAccess 3)) ∧ step (asked (cmdAccess 3)) = .next (State.reset.setError true 2) :=
  ⟨by decide, next_of_stateOf (by decide)⟩

theorem test_hyp_KeyScheduleStaysCurrent :
    KeyScheduleCurrent ((katState []).setRequests [.access (cmdAccess 0)]) ∧
      step ((katState []).setRequests [.access (cmdAccess 0)]) = .next (katState []) := by
  refine ⟨fun _ => ?_, rfl⟩
  have h : masterKey katKeyb = katBlock := by decide
  change keySchedule katBlock = keySchedule (masterKey katKeyb)
  rw [h]

/-- Two states that differ in what the host has been told. -/
theorem test_hyp_EqualAccessesGiveEqualResults :
    let s := askedKeyed (readAccess .status)
    let s' := askedKeyed (readAccess .status) |>.respond 7
    SameBlock s s' ∧ s.requests = s'.requests ∧ RunsTo 1 s ((State.reset.setKsv true).respond 1) :=
  ⟨⟨rfl, rfl, rfl, rfl, rfl, rfl⟩, rfl, _, rfl, rfl⟩

theorem test_hyp_InstancesAreIndependent :
    [State.reset, asked (cmdAccess 0)][1]? = some (asked (cmdAccess 0)) ∧ 0 ≠ 1 := by decide

theorem test_hyp_CommandLineMakesItsWord :
    (Instr.enc1 8).wellFormed = false ∧ (Instr.enc1 7).wellFormed = true := by decide

theorem test_hyp_OrderOfUseEncryptsUnderTheKey :
    CanonicalDb (katState countingDb) ∧ (katState countingDb).err = false ∧ (katState countingDb).errcode = 0 ∧
      (katState countingDb).requests = [] := by decide

end Sys2Proof.Tests
end

/-!
# The state family (10_state.md): STATUS stays legal, what moves KSV, and no hidden state

Every proof here follows the layers of a step: the shared operations, `exec`, the CMD write, the host access, `step`.
-/

namespace Sys2Proof.Machine

open Sys2Proof.Safety

/-! ## The register map as an equivalence (20_memory.md R52) -/

/-- A register stands at its own offset. -/
@[simp] theorem regAt_offset (r : Reg) : regAt r.offset = some r := by
  cases r with
  | cmd => decide
  | status => decide
  | key n => revert n; decide
  | rk i => revert i; decide
  | dbuf n => revert n; decide

/-- No other register stands there. -/
theorem offset_of_regAt {o : BitVec 9} {r : Reg} (h : regAt o = some r) : r.offset = o := by
  apply BitVec.eq_of_toNat_eq
  unfold regAt at h
  dsimp only at h
  split_ifs at h
  all_goals
    obtain rfl := Option.some.inj h
    simp only [Reg.offset, BitVec.ofNat_eq_ofNat, BitVec.toNat_ofNat]
    omega

/-- The register an access reaches, by the access's own fields (45_control_and_host_access.md R207). -/
theorem target_eq_some_iff {a : Access} {r : Reg} : a.target = some r ↔ a.size = 32 ∧ a.offset = r.offset := by
  unfold Access.target
  constructor
  · intro h
    split_ifs at h with hs
    exact ⟨hs, (offset_of_regAt h).symm⟩
  · rintro ⟨hs, ho⟩
    rw [if_pos hs, ho, regAt_offset]

/-- A CMD write of a word is an access that writes this word to the register CMD. -/
theorem commandWrite_iff {a : Access} {c : Word} :
    CommandWrite a c ↔ a.kind = .write ∧ a.target = some .cmd ∧ a.data = c := by
  rw [target_eq_some_iff]
  change _ ↔ a.kind = .write ∧ (a.size = 32 ∧ a.offset = 0x000) ∧ a.data = c
  tauto

/-! ## Steps by the first request -/

/-- With a host access first, a step is that access (45_control_and_host_access.md R207). -/
theorem step_of_access {s : State} {a : Access} {rest : List HostEvent} (h : s.requests = .access a :: rest) :
    step s = hostStep a (s.setRequests rest) := by
  simp only [step, serveNext, h, handleEvent]

/-- With a reset first, a step is the reset (70_reset_and_hazards.md R250). -/
theorem step_of_reset {s : State} {rest : List HostEvent} (h : s.requests = .reset :: rest) :
    step s = .next (applyReset (s.setRequests rest)) := by
  simp only [step, serveNext, h, handleEvent]

/-- A write that reaches a register is the register's write (R202 to R206). -/
theorem hostStep_of_write {a : Access} {r : Reg} (s : State) (hk : a.kind = .write) (ht : a.target = some r) :
    hostStep a s = writeReg r a.data s := by
  simp only [hostStep, ht, hk]

@[simp] theorem applyReset_keyb (s : State) : (applyReset s).keyb = Vector.replicate 16 0 := rfl
@[simp] theorem applyReset_rk (s : State) : (applyReset s).rk = Vector.replicate 32 0 := rfl
@[simp] theorem applyReset_db (s : State) : (applyReset s).db = [] := rfl
@[simp] theorem applyReset_ksv (s : State) : (applyReset s).ksv = false := rfl
@[simp] theorem applyReset_err (s : State) : (applyReset s).err = false := rfl
@[simp] theorem applyReset_errcode (s : State) : (applyReset s).errcode = 0 := rfl
@[simp] theorem applyReset_requests (s : State) : (applyReset s).requests = s.requests := rfl
@[simp] theorem applyReset_responses (s : State) : (applyReset s).responses = s.responses := rfl

/-! ## STATUS stays legal (10_state.md R26) -/

/-- Legality of STATUS speaks of ERR and ERRCODE only. -/
theorem statusLegal_congr {s t : State} (he : t.err = s.err) (hc : t.errcode = s.errcode) (h : StatusLegal s) :
    StatusLegal t := by
  simpa only [StatusLegal, he, hc] using h

/-- Every cause has one of the codes 1, 2, 3 (60_exceptions.md R221), so a first error is legal, and a later one is not recorded. -/
theorem statusLegal_raiseError {s : State} (c : ErrorCause) (h : StatusLegal s) : StatusLegal (raiseError c s) := by
  cases he : s.err with
  | true => rwa [raiseError_of_err c he]
  | false =>
    rw [raiseError_of_no_err c he]
    cases c <;> simp [StatusLegal, ErrorCause.code]

/-- An acknowledged error leaves ERR = 0 and ERRCODE = 0 (60_exceptions.md R226). -/
theorem statusLegal_clearError (s : State) : StatusLegal (clearError s) := by simp [StatusLegal]

theorem statusLegal_busError {s : State} (k : AccessKind) (h : StatusLegal s) : StatusLegal (busError k s) := by
  cases k
  · exact statusLegal_raiseError .bus h
  · exact statusLegal_raiseError .bus h

theorem statusLegal_writeStatus {s : State} (v : Word) (h : StatusLegal s) : StatusLegal (writeStatus v s) := by
  unfold writeStatus
  split
  · exact statusLegal_clearError s
  · exact h

theorem exec_keeps_statusLegal {i : Instr} {s t : State} (h : exec i s = .next t) (hs : StatusLegal s) : StatusLegal t := by
  obtain ⟨-, rfl⟩ | ⟨-, rfl⟩ | ⟨-, rfl, -⟩ | ⟨-, -, m, rfl, -⟩ := exec_next_cases h
  · exact hs
  · exact statusLegal_congr rfl rfl hs
  · exact statusLegal_raiseError .noKey hs
  · exact statusLegal_congr rfl rfl hs

theorem writeCmd_keeps_statusLegal {c : Word} {s t : State} (h : writeCmd c s = .next t) (hs : StatusLegal s) :
    StatusLegal t := by
  obtain ⟨-, rfl⟩ | ⟨-, -, rfl⟩ | ⟨-, i, -, hx⟩ := writeCmd_next h
  · exact hs
  · exact statusLegal_raiseError .illegalCmd hs
  · exact exec_keeps_statusLegal hx hs

theorem hostStep_keeps_statusLegal {a : Access} {s t : State} (h : hostStep a s = .next t) (hs : StatusLegal s) :
    StatusLegal t := by
  obtain ⟨-, rfl⟩ | ⟨r, -, -, rfl⟩ | ⟨-, -, hc⟩ | ⟨-, -, rfl⟩ | ⟨n, -, -, rfl⟩ | ⟨n, -, -, rfl⟩ := hostStep_next h
  · exact statusLegal_busError a.kind hs
  · exact statusLegal_congr rfl rfl hs
  · exact writeCmd_keeps_statusLegal hc hs
  · exact statusLegal_writeStatus a.data hs
  · exact statusLegal_congr rfl rfl hs
  · exact statusLegal_congr rfl rfl hs

/-- Settles O54: each of the three events of a step keeps the legal values of STATUS. -/
theorem statusStaysLegal : Obligations.StatusStaysLegal := by
  intro s t hs h
  obtain ⟨-, rfl⟩ | ⟨rest, ⟨-, rfl⟩ | ⟨a, -, ha⟩⟩ := serveNext_next h
  · exact hs
  · simp [StatusLegal]
  · exact hostStep_keeps_statusLegal ha (statusLegal_congr rfl rfl hs)

/-! ## What moves KSV (10_state.md R27) -/

/-- KEYEXP has one word (30_encoding.md R73). -/
theorem decode_eq_keyexp_iff {c : Word} : decode c = .ok .keyexp ↔ c = 0x00000001 := by
  constructor
  · intro h
    by_contra hc
    have h1 : c.toNat ≠ 1 := fun e => hc (BitVec.eq_of_toNat_eq e)
    rw [decode_eq, if_neg h1] at h
    split_ifs at h <;> simp at h
  · rintro rfl
    rfl

/-- Of the commands, KEYEXP alone moves KSV, to 1. -/
theorem exec_ksv {i : Instr} {s t : State} (h : exec i s = .next t) : t.ksv = s.ksv ∨ i = .keyexp ∧ t.ksv = true := by
  obtain ⟨-, rfl⟩ | ⟨rfl, rfl⟩ | ⟨-, rfl, -⟩ | ⟨-, -, m, rfl, -⟩ := exec_next_cases h
  · exact .inl rfl
  · exact .inr ⟨rfl, rfl⟩
  · exact .inl (raiseError_ksv _ _)
  · exact .inl rfl

/-- Of the words written to CMD, KEYEXP's alone moves KSV, to 1, and only with ERR = 0. -/
theorem writeCmd_ksv {c : Word} {s t : State} (h : writeCmd c s = .next t) :
    t.ksv = s.ksv ∨ c = 0x00000001 ∧ s.err = false ∧ t.ksv = true := by
  obtain ⟨-, rfl⟩ | ⟨-, -, rfl⟩ | ⟨he, i, hd, hx⟩ := writeCmd_next h
  · exact .inl rfl
  · exact .inl (raiseError_ksv _ _)
  · obtain hk | ⟨rfl, hk⟩ := exec_ksv hx
    · exact .inl hk
    · exact .inr ⟨decode_eq_keyexp_iff.mp hd, he, hk⟩

theorem writeStatus_ksv (v : Word) (s : State) : (writeStatus v s).ksv = s.ksv := by
  unfold writeStatus
  split <;> rfl

/-- Of the host accesses, a KEYEXP that is not dropped sets KSV, a KEY write clears it, and no other moves it. -/
theorem hostStep_ksv {a : Access} {s t : State} (h : hostStep a s = .next t) :
    t.ksv = s.ksv ∨ (CommandWrite a 0x00000001 ∧ s.err = false ∧ t.ksv = true) ∨
      (∃ n, a.target = some (.key n) ∧ a.kind = .write ∧ t.ksv = false) := by
  obtain ⟨-, rfl⟩ | ⟨r, -, -, rfl⟩ | ⟨ht, hw, hc⟩ | ⟨-, -, rfl⟩ | ⟨n, ht, hw, rfl⟩ | ⟨n, -, -, rfl⟩ := hostStep_next h
  · obtain ⟨-, -, -, hk, -⟩ := busError_frame a.kind s
    exact .inl hk
  · exact .inl rfl
  · obtain hk | ⟨hd, he, hk⟩ := writeCmd_ksv hc
    · exact .inl hk
    · exact .inr (.inl ⟨commandWrite_iff.mpr ⟨hw, ht, hd⟩, he, hk⟩)
  · exact .inl (writeStatus_ksv a.data s)
  · exact .inr (.inr ⟨n, ht, hw, rfl⟩)
  · exact .inl rfl

/-- A step moves KSV only by a reset, a KEYEXP that is not dropped, or a KEY write. -/
theorem step_ksv {s t : State} (h : step s = .next t) :
    t.ksv = s.ksv ∨ ∃ rest, (s.requests = .reset :: rest ∧ t.ksv = false) ∨
      ∃ a, s.requests = .access a :: rest ∧
        ((CommandWrite a 0x00000001 ∧ s.err = false ∧ t.ksv = true) ∨
          (∃ n, a.target = some (.key n) ∧ a.kind = .write ∧ t.ksv = false)) := by
  obtain ⟨-, rfl⟩ | ⟨rest, ⟨hr, rfl⟩ | ⟨a, hr, ha⟩⟩ := serveNext_next h
  · exact .inl rfl
  · exact .inr ⟨rest, .inl ⟨hr, rfl⟩⟩
  · obtain hk | hk := hostStep_ksv ha
    · exact .inl hk
    · exact .inr ⟨rest, .inr ⟨a, hr, hk⟩⟩

theorem ksv_set_by_keyexp {s t : State} (h : step s = .next t) (hs : s.ksv = false) (ht : t.ksv = true) :
    ∃ rest a, s.requests = .access a :: rest ∧ CommandWrite a 0x00000001 ∧ s.err = false := by
  obtain hk | ⟨rest, ⟨-, hk⟩ | ⟨a, hr, ⟨hc, he, -⟩ | ⟨n, -, -, hk⟩⟩⟩ := step_ksv h
  · simp [hs, ht] at hk
  · simp [ht] at hk
  · exact ⟨rest, a, hr, hc, he⟩
  · simp [ht] at hk

theorem ksv_cleared_by_reset_or_key_write {s t : State} (h : step s = .next t) (hs : s.ksv = true) (ht : t.ksv = false) :
    ∃ rest, s.requests = .reset :: rest ∨ ∃ a, s.requests = .access a :: rest ∧ a.kind = .write ∧ a.size = 32 ∧
      ∃ n : Fin 4, a.offset = BitVec.ofNat 9 (0x010 + 4 * n.val) := by
  obtain hk | ⟨rest, ⟨hr, -⟩ | ⟨a, hr, ⟨-, -, hk⟩ | ⟨n, hn, hw, -⟩⟩⟩ := step_ksv h
  · simp [hs, ht] at hk
  · exact ⟨rest, .inl hr⟩
  · simp [ht] at hk
  · obtain ⟨hsz, ho⟩ := target_eq_some_iff.mp hn
    exact ⟨rest, .inr ⟨a, hr, hw, hsz, n, ho⟩⟩

/-- A write that reaches KEYn is a step to the key write's own state (45_control_and_host_access.md R202). -/
theorem step_of_key_write {s : State} {a : Access} {rest : List HostEvent} {n : Fin 4} (hr : s.requests = .access a :: rest)
    (hw : a.kind = .write) (ht : a.target = some (.key n)) :
    step s = .next (writeKey n a.data (s.setRequests rest)) := by
  rw [step_of_access hr, hostStep_of_write _ hw ht]
  rfl

/-- A KEYEXP word that is not dropped is a step to KEYEXP's own state (42_key_schedule.md R141). -/
theorem step_of_keyexp {s : State} {a : Access} {rest : List HostEvent} (hr : s.requests = .access a :: rest)
    (hc : CommandWrite a 0x00000001) (he : s.err = false) :
    step s = .next (((s.setRequests rest).setRk (keySchedule (masterKey s.keyb))).setKsv true) := by
  obtain ⟨hw, ht, hd⟩ := commandWrite_iff.mp hc
  rw [step_of_access hr, hostStep_of_write _ hw ht, hd]
  simp only [writeReg, writeCmd, setRequests_err, he, decode_eq_keyexp_iff.mpr rfl]
  rfl

/-- A well-formed command that needs a key schedule records NO_KEY without one, and changes nothing else
(60_exceptions.md R221). -/
theorem exec_without_key {i : Instr} {s : State} (hn : needsKey i = true) (hw : i.wellFormed = true) (hk : s.ksv = false)
    (he : s.err = false) : exec i s = .next (s.setError true 2) := by
  have hraise : raiseError .noKey s = s.setError true 2 := raiseError_of_no_err .noKey he
  have hscalar (b : Nat) (rk : Vector Word 32) (hb : wfBlock b = true) :
      scalarCommand b rk s = .next (s.setError true 2) := by
    simp [scalarCommand, of_decide_eq_true hb, hk, hraise]
  have hvector (rk : Vector Word 32) : vectorCommand rk s = .next (s.setError true 2) := by
    simp [vectorCommand, hk, hraise]
  cases i with
  | enc1 b => exact hscalar b _ hw
  | dec1 b => exact hscalar b _ hw
  | enc8 => exact hvector _
  | dec8 => exact hvector _
  | nop | keyexp | sub8 | tau8 | tauk8 => simp [needsKey] at hn

/-- Settles O48: `step_ksv` gives the events that can move KSV, and each of them is then run. -/
theorem ksvIsSetByKeyexpAndClearedByKeyWrites : Obligations.KsvIsSetByKeyexpAndClearedByKeyWrites := by
  refine ⟨fun s t => ksv_set_by_keyexp, fun s t => ksv_cleared_by_reset_or_key_write, ?keyWrite, ?keyexp, ?reset,
    fun s i => exec_without_key⟩
  case keyWrite =>
    intro s t rest a n hr hw hsz ho h
    rw [step_of_key_write hr hw (target_eq_some_iff.mpr ⟨hsz, ho⟩)] at h
    obtain rfl := Host.Outcome.next.inj h
    rfl
  case keyexp =>
    intro s t rest a hr hc he h
    rw [step_of_keyexp hr hc he] at h
    obtain rfl := Host.Outcome.next.inj h
    rfl
  case reset =>
    intro s t rest hr h
    rw [step_of_reset hr] at h
    obtain rfl := Host.Outcome.next.inj h
    rfl

/-! ## No hidden state (10_state.md R42)

Nothing reads the responses already given: changing them changes a step's outcome in its responses only. -/

/-- Replace the values that the host's reads have returned. -/
def State.setResponses (s : State) (r : List Word) : State := { s with responses := r }

@[simp] theorem setResponses_requests (s : State) (r : List Word) : (s.setResponses r).requests = s.requests := rfl
@[simp] theorem setResponses_keyb (s : State) (r : List Word) : (s.setResponses r).keyb = s.keyb := rfl
@[simp] theorem setResponses_db (s : State) (r : List Word) : (s.setResponses r).db = s.db := rfl
@[simp] theorem setResponses_ksv (s : State) (r : List Word) : (s.setResponses r).ksv = s.ksv := rfl
@[simp] theorem setResponses_err (s : State) (r : List Word) : (s.setResponses r).err = s.err := rfl

/-! The other updates commute with it. -/

@[simp] theorem setKeyb_setResponses (s : State) (r : List Word) (k : Vector Byte 16) :
    (s.setResponses r).setKeyb k = (s.setKeyb k).setResponses r := rfl
@[simp] theorem setRk_setResponses (s : State) (r : List Word) (k : Vector Word 32) :
    (s.setResponses r).setRk k = (s.setRk k).setResponses r := rfl
@[simp] theorem setDb_setResponses (s : State) (r : List Word) (m : Memory) :
    (s.setResponses r).setDb m = (s.setDb m).setResponses r := rfl
@[simp] theorem setKsv_setResponses (s : State) (r : List Word) (b : Bool) :
    (s.setResponses r).setKsv b = (s.setKsv b).setResponses r := rfl
@[simp] theorem setError_setResponses (s : State) (r : List Word) (b : Bool) (c : BitVec 4) :
    (s.setResponses r).setError b c = (s.setError b c).setResponses r := rfl
@[simp] theorem setRequests_setResponses (s : State) (r : List Word) (q : List HostEvent) :
    (s.setResponses r).setRequests q = (s.setRequests q).setResponses r := rfl
@[simp] theorem applyReset_setResponses (s : State) (r : List Word) :
    applyReset (s.setResponses r) = (applyReset s).setResponses r := rfl
@[simp] theorem respond_setResponses (s : State) (r : List Word) (v : Word) :
    (s.setResponses r).respond v = (s.respond v).setResponses (r ++ [v]) := rfl

/-- No register's value depends on it. -/
@[simp] theorem readReg_setResponses (x : Reg) (s : State) (r : List Word) :
    readReg x (s.setResponses r) = readReg x s := by
  cases x <;> rfl

@[simp] theorem raiseError_setResponses (c : ErrorCause) (s : State) (r : List Word) :
    raiseError c (s.setResponses r) = (raiseError c s).setResponses r := by
  cases h : s.err with
  | true => rw [raiseError_of_err c h, raiseError_of_err c (s := s.setResponses r) h]
  | false =>
    rw [raiseError_of_no_err c h, raiseError_of_no_err c (s := s.setResponses r) h]
    rfl

/-- A state with the same block and the same requests differs in its responses only. -/
theorem eq_setResponses_of_sameBlock {s s' : State} (h : SameBlock s s') (hr : s.requests = s'.requests) :
    s' = s.setResponses s'.responses := by
  obtain ⟨hkeyb, hrk, hdb, hksv, herr, hcode⟩ := h
  exact state_ext hkeyb.symm hrk.symm hdb.symm hksv.symm herr.symm hcode.symm hr.symm rfl

theorem sameBlock_setResponses (s : State) (r : List Word) : SameBlock s (s.setResponses r) :=
  ⟨rfl, rfl, rfl, rfl, rfl, rfl⟩

@[simp] theorem writeStatus_setResponses (v : Word) (s : State) (r : List Word) :
    writeStatus v (s.setResponses r) = (writeStatus v s).setResponses r := by
  unfold writeStatus
  split <;> rfl

@[simp] theorem cryptBlock_setResponses (b : Nat) (rk : Vector Word 32) (s : State) (r : List Word) :
    cryptBlock b rk (s.setResponses r) = (cryptBlock b rk s).setResponses r := by
  simp [cryptBlock]

theorem scalarCommand_setResponses {b : Nat} {rk : Vector Word 32} {s t : State} (h : scalarCommand b rk s = .next t)
    (r : List Word) : scalarCommand b rk (s.setResponses r) = .next (t.setResponses r) := by
  obtain ⟨hb, ⟨hk, rfl⟩ | ⟨hk, rfl⟩⟩ := scalarCommand_next h
  · simp [scalarCommand, hb, hk]
  · simp [scalarCommand, hb, hk]

theorem vectorCommand_setResponses {rk : Vector Word 32} {s t : State} (h : vectorCommand rk s = .next t)
    (r : List Word) : vectorCommand rk (s.setResponses r) = .next (t.setResponses r) := by
  obtain ⟨hk, rfl⟩ | ⟨hk, rfl⟩ := vectorCommand_next h
  · simp [vectorCommand, hk]
  · simp [vectorCommand, hk]

theorem laneWordCommand_setResponses {f : LaneReg → LaneReg} {w : Nat} {s t : State}
    (h : laneWordCommand f w s = .next t) (r : List Word) :
    laneWordCommand f w (s.setResponses r) = .next (t.setResponses r) := by
  obtain ⟨hw, rfl⟩ := laneWordCommand_next h
  simp [laneWordCommand, hw]

/-- No command reads or adds responses. -/
theorem exec_setResponses {i : Instr} {s t : State} (h : exec i s = .next t) (r : List Word) :
    exec i (s.setResponses r) = .next (t.setResponses r) := by
  cases i with
  | nop =>
    obtain rfl := Host.Outcome.next.inj h
    rfl
  | keyexp =>
    obtain rfl := Host.Outcome.next.inj h
    simp [exec, execKeyexp]
  | enc1 b => exact scalarCommand_setResponses (rk := rkEnc s) h r
  | dec1 b => exact scalarCommand_setResponses (rk := rkDec s) h r
  | enc8 => exact vectorCommand_setResponses (rk := rkEnc s) h r
  | dec8 => exact vectorCommand_setResponses (rk := rkDec s) h r
  | sub8 w => exact laneWordCommand_setResponses (f := gather8) h r
  | tau8 w => exact laneWordCommand_setResponses (f := fun v => diffusionL8 (gather8 v)) h r
  | tauk8 w => exact laneWordCommand_setResponses (f := fun v => diffusionL'8 (gather8 v)) h r

theorem writeCmd_setResponses {c : Word} {s t : State} (h : writeCmd c s = .next t) (r : List Word) :
    writeCmd c (s.setResponses r) = .next (t.setResponses r) := by
  obtain ⟨he, rfl⟩ | ⟨he, ⟨x, hd⟩, rfl⟩ | ⟨he, i, hd, hx⟩ := writeCmd_next h
  · simp [writeCmd, he]
  · simp [writeCmd, he, hd]
  · simpa [writeCmd, he, hd] using exec_setResponses hx r

/-- A write adds no response, whatever responses were given before. -/
theorem writeReg_setResponses {x : Reg} {v : Word} {s t : State} (h : writeReg x v s = .next t) (r : List Word) :
    writeReg x v (s.setResponses r) = .next (t.setResponses r) := by
  cases x with
  | cmd => exact writeCmd_setResponses h r
  | status | key | rk | dbuf =>
    obtain rfl := Host.Outcome.next.inj h
    simp [writeReg, writeKey, writeDbuf, busError]

/-- A host access adds at most one response, and the same whatever responses were given before. -/
theorem hostStep_setResponses {a : Access} {s t : State} (h : hostStep a s = .next t) :
    ∃ out, ∀ r, hostStep a (s.setResponses r) = .next (t.setResponses (r ++ out)) := by
  cases ht : a.target with
  | none =>
    obtain rfl : busError a.kind s = t := by simpa [hostStep, ht] using h
    cases hk : a.kind with
    | read => exact ⟨[0], fun r => by simp [hostStep, ht, hk, busError]⟩
    | write => exact ⟨[], fun r => by simp [hostStep, ht, hk, busError]⟩
  | some x =>
    cases hk : a.kind with
    | read =>
      obtain rfl : s.respond (readReg x s) = t := by simpa [hostStep, ht, hk] using h
      exact ⟨[readReg x s], fun r => by simp [hostStep, ht, hk]⟩
    | write =>
      rw [hostStep_of_write s hk ht] at h
      exact ⟨[], fun r => by rw [hostStep_of_write _ hk ht, writeReg_setResponses h, List.append_nil]⟩

/-- A step's outcome, the values it adds to the responses included, does not depend on the responses given before. -/
theorem step_setResponses {s t : State} (h : step s = .next t) :
    ∃ out, ∀ r, step (s.setResponses r) = .next (t.setResponses (r ++ out)) := by
  obtain ⟨hr, rfl⟩ | ⟨rest, ⟨hr, rfl⟩ | ⟨a, hr, ha⟩⟩ := serveNext_next h
  · exact ⟨[], fun r => by simp [step, serveNext, hr]⟩
  · exact ⟨[], fun r => by simp [step_of_reset (s := s.setResponses r) hr]⟩
  · obtain ⟨out, hout⟩ := hostStep_setResponses ha
    exact ⟨out, fun r => by simpa [step_of_access (s := s.setResponses r) hr] using hout r⟩

/-- The same of a run of any length, by induction on it. -/
theorem runsTo_setResponses {k : Nat} {s t : State} (h : RunsTo k s t) :
    ∃ out, ∀ r, RunsTo k (s.setResponses r) (t.setResponses (r ++ out)) := by
  induction k generalizing s with
  | zero =>
    obtain rfl : s = t := h
    exact ⟨[], fun r => congrArg _ (List.append_nil r).symm⟩
  | succ k ih =>
    obtain ⟨u, hu, hrun⟩ := h
    obtain ⟨out₁, hout₁⟩ := step_setResponses hu
    obtain ⟨out₂, hout₂⟩ := ih hrun
    refine ⟨out₁ ++ out₂, fun r => ⟨_, hout₁ r, ?_⟩⟩
    rw [← List.append_assoc]
    exact hout₂ (r ++ out₁)

/-- A run of a given length has one end. -/
theorem runsTo_unique {k : Nat} {s t t' : State} (h : RunsTo k s t) (h' : RunsTo k s t') : t = t' := by
  induction k generalizing s with
  | zero => exact Eq.trans (Eq.symm h) h'
  | succ k ih =>
    obtain ⟨u, hu, hrun⟩ := h
    obtain ⟨u', hu', hrun'⟩ := h'
    obtain rfl := Host.Outcome.next.inj (hu.symm.trans hu')
    exact ih hrun hrun'

/-- Settles O56: the second state is the first with other responses, and so is the end of its run. -/
theorem equalAccessesGiveEqualResults : Obligations.EqualAccessesGiveEqualResults := by
  intro k s s' t hblock hreq hrun
  obtain ⟨out, hout⟩ := runsTo_setResponses hrun
  have ht : t = t.setResponses (s.responses ++ out) := runsTo_unique hrun (hout s.responses)
  refine ⟨t.setResponses (s'.responses ++ out), out, ?_, sameBlock_setResponses t _, rfl, congrArg State.responses ht, rfl⟩
  rw [eq_setResponses_of_sameBlock hblock hreq]
  exact hout s'.responses

end Sys2Proof.Machine

/-!
# The memory family (20_memory.md): bus errors

The accesses that the spec calls bus errors (R53, R54, R57) are those that reach no register and the writes that reach RK, and on
these a host access is `busError`.
-/

namespace Sys2Proof.Machine

open Sys2Proof.Safety

/-- The offsets that reach no register (20_memory.md R52, R53, R54). -/
theorem regAt_eq_none_iff {o : BitVec 9} : regAt o = none ↔ o.toNat % 4 ≠ 0 ∨ UnmappedOffset o.toNat := by
  have hlt := o.isLt
  unfold regAt
  dsimp only
  split_ifs <;> simp only [true_iff, false_iff] <;> omega

/-- The accesses that reach no register (20_memory.md R53, R54). -/
theorem target_eq_none_iff {a : Access} :
    a.target = none ↔ a.size ≠ 32 ∨ a.offset.toNat % 4 ≠ 0 ∨ UnmappedOffset a.offset.toNat := by
  rw [← regAt_eq_none_iff]
  unfold Access.target
  split_ifs with hs <;> simp [hs]

/-- A register in 0x080 to 0x0FC is one of RK0..RK31, and these are nowhere else (20_memory.md R52). -/
theorem rk_iff_offset_mem_range {r : Reg} :
    (∃ i, r = .rk i) ↔ 0x080 ≤ r.offset.toNat ∧ r.offset.toNat ≤ 0x0FC := by
  cases r with
  | cmd | status => simp [Reg.offset]
  | rk i =>
    refine iff_of_true ⟨i, rfl⟩ ?_
    simp only [Reg.offset, BitVec.toNat_ofNat]
    omega
  | key n | dbuf n =>
    refine iff_of_false (by simp) ?_
    simp only [Reg.offset, BitVec.toNat_ofNat]
    omega

/-- The bus errors of R53, R54 and R57 are the accesses that reach no register and the writes that reach RK. -/
theorem busFault_iff {a : Access} :
    BusFault a ↔ a.target = none ∨ a.kind = .write ∧ ∃ i, a.target = some (.rk i) := by
  have hfault : BusFault a ↔
      a.target = none ∨ a.kind = .write ∧ 0x080 ≤ a.offset.toNat ∧ a.offset.toNat ≤ 0x0FC := by
    simp only [BusFault, target_eq_none_iff, or_assoc]
  rw [hfault]
  cases ht : a.target with
  | none => simp
  | some r =>
    obtain ⟨-, ho⟩ := target_eq_some_iff.mp ht
    simp only [Option.some.injEq, rk_iff_offset_mem_range, ho]

/-- On a bus fault a host access is the bus error (45_control_and_host_access.md R207). -/
theorem hostStep_of_busFault {a : Access} (s : State) (h : BusFault a) : hostStep a s = .next (busError a.kind s) := by
  obtain ht | ⟨hk, i, ht⟩ := busFault_iff.mp h
  · simp only [hostStep, ht]
  · rw [hostStep_of_write s hk ht, hk]
    rfl

/-- A read that reaches a register returns it (45_control_and_host_access.md R201). -/
theorem hostStep_of_read {a : Access} {r : Reg} (s : State) (hk : a.kind = .read) (ht : a.target = some r) :
    hostStep a s = .next (s.respond (readReg r s)) := by
  simp only [hostStep, ht, hk]

/-- A bus error answers a read with 0, and a write with nothing (20_memory.md R57). -/
theorem busError_responses (k : AccessKind) (s : State) :
    (busError k s).responses = if k = .read then s.responses ++ [0x00000000] else s.responses := by
  cases k <;> simp [busError]

/-- Of the block, a bus error changes the error record, and that only with ERR = 0 (20_memory.md R57). The state before is compared
with its access still among its requests, the bus error served with the access taken. -/
theorem busError_sameBlock (k : AccessKind) (s : State) (rest : List HostEvent) :
    SameBlock (busError k (s.setRequests rest)) (if s.err then s else s.setError true 3) := by
  obtain ⟨hkeyb, hrk, hdb, hksv, herr, hcode, -, -⟩ := busError_frame k (s.setRequests rest)
  cases he : s.err with
  | true => exact ⟨hkeyb, hrk, hdb, hksv, by simp [herr, he], by simp [hcode, he]⟩
  | false => exact ⟨hkeyb, hrk, hdb, hksv, herr, by simp [hcode, he]⟩

/-- Settles O38: a bus fault is served as `busError`, and CMD is a register that reads 0. -/
theorem badAccessesAreBusErrors : Obligations.BadAccessesAreBusErrors := by
  refine ⟨fun s a rest hr hb => ?fault, fun s d rest hr => ?readCmd⟩
  case fault =>
    have hstep : step s = .next (busError a.kind (s.setRequests rest)) := by
      rw [step_of_access hr, hostStep_of_busFault _ hb]
    obtain ⟨-, -, -, -, -, -, hreq, -⟩ := busError_frame a.kind (s.setRequests rest)
    exact ⟨_, hstep, busError_sameBlock _ s rest, hreq, busError_responses _ _⟩
  case readCmd =>
    rw [step_of_access hr, hostStep_of_read (r := .cmd) _ rfl rfl]
    rfl

end Sys2Proof.Machine

/-!
# The encoding family (30_encoding.md): row selection, the illegal words, and what a CMD write does

The rows of R73 exclude each other, so the decoder's search through them in order is the same as selection by any row. The statements
about a CMD write then run the one register write that R75 describes.
-/

namespace Sys2Proof.Machine

open Sys2Proof.Safety

/-! ## The rows exclude each other (R73) -/

/-- A word that selects two rows gives both the same value in the bits that both fix. -/
theorem pattern_and_mask_comm_of_selects {r r' : Row} {c : Word} (h : r.selects c = true) (h' : r'.selects c = true) :
    r.pattern &&& r'.mask = r'.pattern &&& r.mask := by
  have hc : c &&& r.mask = r.pattern := eq_of_beq h
  have hc' : c &&& r'.mask = r'.pattern := eq_of_beq h'
  rw [← hc, ← hc', BitVec.and_assoc, BitVec.and_assoc, BitVec.and_comm r.mask]

/-- Any two rows of the table differ in a bit that both fix. -/
theorem opcodeRows_pairwise_differ : opcodeRows.Pairwise fun r r' => r.pattern &&& r'.mask ≠ r'.pattern &&& r.mask := by
  decide

/-- No word selects two rows. -/
theorem opcodeRows_pairwise_disjoint (c : Word) :
    opcodeRows.Pairwise fun r r' => ¬(r.selects c = true ∧ r'.selects c = true) :=
  opcodeRows_pairwise_differ.imp fun hne ⟨h, h'⟩ => hne (pattern_and_mask_comm_of_selects h h')

/-- The row that a word selects is unique. -/
theorem row_eq_of_selects {r r' : Row} {c : Word} (hr : r ∈ opcodeRows) (hr' : r' ∈ opcodeRows) (h : r.selects c = true)
    (h' : r'.selects c = true) : r = r' := by
  by_contra hne
  have : Std.Symm fun r r' : Row => ¬(r.selects c = true ∧ r'.selects c = true) := ⟨fun _ _ hn hs => hn hs.symm⟩
  exact (opcodeRows_pairwise_disjoint c).forall hr hr' hne ⟨h, h'⟩

/-! ## The decoder as selection of a row (R75) -/

/-- A word decodes to what the row that it selects builds from it. -/
theorem decode_of_mem_row {r : Row} {c : Word} (hr : r ∈ opcodeRows) (h : c &&& r.mask = r.pattern) :
    decode c = .ok (r.build c) := by
  have hs : r.selects c = true := beq_iff_eq.mpr h
  unfold decode
  cases hf : opcodeRows.find? (fun r => r.selects c) with
  | none => exact absurd hs (List.find?_eq_none.mp hf r hr)
  | some r' =>
    have hs' : r'.selects c = true := List.find?_some (p := fun r : Row => r.selects c) hf
    rw [row_eq_of_selects hr (List.mem_of_find?_eq_some hf) hs hs']

/-- A word that selects no row is rejected under the name that R76's list gives it. -/
theorem decode_of_no_row {c : Word} (h : ∀ r ∈ opcodeRows, c &&& r.mask ≠ r.pattern) : decode c = .error (rejectReason c) := by
  have hf : opcodeRows.find? (fun r => r.selects c) = none :=
    List.find?_eq_none.mpr fun r hr hs => h r hr (eq_of_beq hs)
  simp only [decode, hf]

/-- The words that decode to a command, by the rows. -/
theorem decode_eq_ok_iff {c : Word} {i : Instr} :
    decode c = .ok i ↔ ∃ r ∈ opcodeRows, c &&& r.mask = r.pattern ∧ i = r.build c := by
  constructor
  · intro h
    by_cases hrow : ∃ r ∈ opcodeRows, c &&& r.mask = r.pattern
    · obtain ⟨r, hr, hc⟩ := hrow
      rw [decode_of_mem_row hr hc] at h
      exact ⟨r, hr, hc, (Except.ok.inj h).symm⟩
    · rw [decode_of_no_row fun r hr hc => hrow ⟨r, hr, hc⟩] at h
      cases h
  · rintro ⟨r, hr, hc, rfl⟩
    exact decode_of_mem_row hr hc

/-- The words that are rejected, by the rows. -/
theorem decode_eq_error_iff {c : Word} : (∃ e, decode c = .error e) ↔ ∀ r ∈ opcodeRows, c &&& r.mask ≠ r.pattern := by
  constructor
  · rintro ⟨e, h⟩ r hr hc
    rw [decode_of_mem_row hr hc] at h
    cases h
  · exact fun h => ⟨_, decode_of_no_row h⟩

/-- Settles O2: decoding is selection of a row, here read off row by row, and the rows exclude each other. -/
theorem decodeSelectsExactlyTheTableRows : Obligations.DecodeSelectsExactlyTheTableRows := by
  refine ⟨fun c i => decode_eq_ok_iff.trans ?_, opcodeRows_pairwise_disjoint⟩
  simp only [opcodeRows, List.mem_cons, List.not_mem_nil, or_false, exists_eq_or_imp, exists_eq_left]
  rfl

/-! ## The illegal words (R76) -/

/-- A field of n bits at bit k, as arithmetic (R71). -/
theorem toNat_field (c : Word) (k n : Nat) : (c.extractLsb' k n).toNat = c.toNat / 2 ^ k % 2 ^ n := by
  rw [BitVec.extractLsb'_toNat, Nat.shiftRight_eq_div_pow]

theorem field_eq_zero_iff (c : Word) (k n : Nat) : c.extractLsb' k n = 0 ↔ c.toNat / 2 ^ k % 2 ^ n = 0 := by
  rw [← toNat_field, ← BitVec.toNat_inj, BitVec.ofNat_eq_ofNat, BitVec.toNat_zero]

theorem fieldOp_eq (c : Word) : fieldOp c = c.toNat % 16 :=
  (toNat_field c 0 4).trans (by simp)

theorem fieldDir_eq (c : Word) : fieldDir c = c.toNat / 16 % 2 := toNat_field c 4 1

theorem fieldFn_eq (c : Word) : fieldFn c = c.toNat / 1024 % 4 := toNat_field c 10 2

/-- A row with every bit fixed asks for its OP and its DIR, and for 0 in bits 31:5 (R73). -/
theorem and_all_eq_iff_fields (c : Word) {p : Word} {q : Nat} (hp : p.toNat = q) (hq : q < 32) :
    c &&& 0xFFFFFFFF = p ↔ fieldOp c = q % 16 ∧ fieldDir c = q / 16 ∧ c.extractLsb' 5 27 = 0 := by
  have hlt := c.isLt
  rw [and_all_eq_iff, hp, field_eq_zero_iff, fieldOp_eq, fieldDir_eq]
  omega

/-- A row with BSEL free asks for its OP and its DIR, and for 0 in bits 31:8 (R73). -/
theorem and_bselFree_eq_iff_fields (c : Word) {p : Word} {q : Nat} (hp : p.toNat = q) (hq : q < 32) :
    c &&& 0xFFFFFF1F = p ↔ fieldOp c = q % 16 ∧ fieldDir c = q / 16 ∧ c.extractLsb' 8 24 = 0 := by
  have hlt := c.isLt
  rw [and_bselFree_eq_iff c p hp hq, field_eq_zero_iff, fieldOp_eq, fieldDir_eq]
  omega

/-- A row with WSEL free asks for OP 4 and its FN, and for 0 in bits 7:4 and 31:12 (R73). -/
theorem and_wselFree_eq_iff_fields (c : Word) {p : Word} {f : Nat} (hp : p.toNat = 1024 * f + 4) (hf : f < 4) :
    c &&& 0xFFFFFCFF = p ↔
      fieldOp c = 4 ∧ fieldFn c = f ∧ c.extractLsb' 4 4 = 0 ∧ c.extractLsb' 12 20 = 0 := by
  have hlt := c.isLt
  rw [and_wselFree_eq_iff c p hp (by decide), field_eq_zero_iff, field_eq_zero_iff, fieldOp_eq, fieldFn_eq]
  omega

/-- The words that select no row, by their fields, in the order of the rows of R73. -/
theorem no_row_iff_fields (c : Word) :
    (∀ r ∈ opcodeRows, c &&& r.mask ≠ r.pattern) ↔
      ¬(fieldOp c = 0 ∧ fieldDir c = 0 ∧ c.extractLsb' 5 27 = 0) ∧
      ¬(fieldOp c = 1 ∧ fieldDir c = 0 ∧ c.extractLsb' 5 27 = 0) ∧
      ¬(fieldOp c = 2 ∧ fieldDir c = 0 ∧ c.extractLsb' 8 24 = 0) ∧
      ¬(fieldOp c = 2 ∧ fieldDir c = 1 ∧ c.extractLsb' 8 24 = 0) ∧
      ¬(fieldOp c = 3 ∧ fieldDir c = 0 ∧ c.extractLsb' 5 27 = 0) ∧
      ¬(fieldOp c = 3 ∧ fieldDir c = 1 ∧ c.extractLsb' 5 27 = 0) ∧
      ¬(fieldOp c = 4 ∧ fieldFn c = 0 ∧ c.extractLsb' 4 4 = 0 ∧ c.extractLsb' 12 20 = 0) ∧
      ¬(fieldOp c = 4 ∧ fieldFn c = 1 ∧ c.extractLsb' 4 4 = 0 ∧ c.extractLsb' 12 20 = 0) ∧
      ¬(fieldOp c = 4 ∧ fieldFn c = 2 ∧ c.extractLsb' 4 4 = 0 ∧ c.extractLsb' 12 20 = 0) := by
  simp only [opcodeRows, List.mem_cons, List.not_mem_nil, or_false, forall_eq_or_imp, forall_eq]
  refine and_congr (not_congr (and_all_eq_iff_fields c (q := 0) rfl (by decide))) ?_
  refine and_congr (not_congr (and_all_eq_iff_fields c (q := 1) rfl (by decide))) ?_
  refine and_congr (not_congr (and_bselFree_eq_iff_fields c (q := 2) rfl (by decide))) ?_
  refine and_congr (not_congr (and_bselFree_eq_iff_fields c (q := 18) rfl (by decide))) ?_
  refine and_congr (not_congr (and_all_eq_iff_fields c (q := 3) rfl (by decide))) ?_
  refine and_congr (not_congr (and_all_eq_iff_fields c (q := 19) rfl (by decide))) ?_
  refine and_congr (not_congr (and_wselFree_eq_iff_fields c (f := 0) rfl (by decide))) ?_
  refine and_congr (not_congr (and_wselFree_eq_iff_fields c (f := 1) rfl (by decide))) ?_
  exact not_congr (and_wselFree_eq_iff_fields c (f := 2) rfl (by decide))

/-- The words that select no row are those of R76's list: each value of OP leaves its own rows only, which together take every value
of DIR or FN that the list does not name. -/
theorem no_row_iff_listed (c : Word) :
    (∀ r ∈ opcodeRows, c &&& r.mask ≠ r.pattern) ↔
      5 ≤ fieldOp c ∨
      ((fieldOp c = 0 ∨ fieldOp c = 1 ∨ fieldOp c = 3) ∧ c.extractLsb' 5 27 ≠ 0) ∨
      ((fieldOp c = 0 ∨ fieldOp c = 1) ∧ fieldDir c = 1) ∨
      (fieldOp c = 2 ∧ c.extractLsb' 8 24 ≠ 0) ∨
      (fieldOp c = 4 ∧ (fieldFn c = 3 ∨ c.extractLsb' 4 4 ≠ 0 ∨ c.extractLsb' 12 20 ≠ 0)) := by
  have hdir : fieldDir c = 0 ∨ fieldDir c = 1 := by rw [fieldDir_eq]; omega
  have hfn : fieldFn c = 0 ∨ fieldFn c = 1 ∨ fieldFn c = 2 ∨ fieldFn c = 3 := by rw [fieldFn_eq]; omega
  rw [no_row_iff_fields]
  obtain hop | hop | hop | hop | hop | hop :
    5 ≤ fieldOp c ∨ fieldOp c = 0 ∨ fieldOp c = 1 ∨ fieldOp c = 2 ∨ fieldOp c = 3 ∨ fieldOp c = 4 := by omega
  · exact iff_of_true (by omega) (.inl hop)
  · obtain hd | hd := hdir <;> simp [hop, hd]
  · obtain hd | hd := hdir <;> simp [hop, hd]
  · obtain hd | hd := hdir <;> simp [hop, hd]
  · obtain hd | hd := hdir <;> simp [hop, hd]
  · obtain hf | hf | hf | hf := hfn <;> simp [hop, hf, imp_iff_not_or]

/-- DIR as a number and as a bit (R71). -/
theorem fieldDir_eq_one_iff (c : Word) : fieldDir c = 1 ↔ c.extractLsb' 4 1 = 1 :=
  BitVec.toNat_inj (x := c.extractLsb' 4 1) (y := 1)

/-! ## The CMD write as a step (R75) -/

/-- With a CMD write first, a step is that write (45_control_and_host_access.md R205, R207). -/
theorem step_of_commandWrite {s : State} {a : Access} {c : Word} {rest : List HostEvent}
    (hr : s.requests = .access a :: rest) (hc : CommandWrite a c) : step s = writeCmd c (s.setRequests rest) := by
  obtain ⟨hw, ht, hd⟩ := commandWrite_iff.mp hc
  rw [step_of_access hr, hostStep_of_write _ hw ht, hd]
  rfl

/-- While ERR = 1 a word is dropped. -/
theorem writeCmd_of_err {c : Word} {s : State} (he : s.err = true) : writeCmd c s = .next s := by
  simp [writeCmd, he]

/-- An illegal word records ILLEGAL_CMD. -/
theorem writeCmd_of_illegal {c : Word} {s : State} {e : Reject} (he : s.err = false) (hd : decode c = .error e) :
    writeCmd c s = .next (raiseError .illegalCmd s) := by
  simp [writeCmd, he, hd]

/-- A legal word is performed. -/
theorem writeCmd_of_decode {c : Word} {s : State} {i : Instr} (he : s.err = false) (hd : decode c = .ok i) :
    writeCmd c s = exec i s := by
  simp [writeCmd, he, hd]

/-- Settles O4: the illegal words are those that select no row, and ILLEGAL_CMD is a first error with code 1. -/
theorem illegalWordsAreExactlyThoseListed : Obligations.IllegalWordsAreExactlyThoseListed := by
  refine ⟨fun c => decode_eq_error_iff.trans ?_, ?_⟩
  · rw [no_row_iff_listed, fieldDir_eq_one_iff]
    rfl
  · intro s a c e rest hr hc hd he
    have he' : (s.setRequests rest).err = false := he
    rw [step_of_commandWrite hr hc, writeCmd_of_illegal he' hd, raiseError_of_no_err _ he']
    rfl

/-- Settles O6: the three cases of a CMD write, the row's command being what the word decodes to. -/
theorem commandWriteIsDroppedRejectedOrPerformed : Obligations.CommandWriteIsDroppedRejectedOrPerformed := by
  intro s a c rest hr hc
  rw [step_of_commandWrite hr hc]
  exact ⟨fun he => writeCmd_of_err he, fun he hno => writeCmd_of_illegal he (decode_of_no_row hno),
    fun he r hrow hsel => writeCmd_of_decode he (decode_of_mem_row hrow hsel)⟩

end Sys2Proof.Machine

/-!
# The constant tables (40_constant_tables.md): SBOX is a bijection, and CK follows its rule

The S-box of SM4 is inversion in a field of 256 elements (with 0 to 0) between two uses of one affine map A. Undoing A twice after
SBOX leaves that inversion up to a change of coordinates, which is an involution; so SBOX, its first factor, is injective.
-/

namespace Sys2Proof.Machine

/-! ## SBOX (R100, R101) -/

/-- The affine map of bytes that undoes twice the affine map A of SM4's S-box. It stands only in the proof that SBOX is injective;
`sboxUnmix_sbox_involutive` ties it to the table. -/
def sboxUnmix (x : Byte) : Byte := x ^^^ x.rotateLeft 4 ^^^ x.rotateLeft 6 ^^^ 0x6F

/-- Field inversion in other coordinates: on the 256 entries of the table. -/
theorem sboxUnmix_sbox_involutive : Function.Involutive (sboxUnmix ∘ sbox) := by
  change ∀ x : Byte, sboxUnmix (sbox (sboxUnmix (sbox x))) = x
  decide

/-- Every value appears in the table exactly once. -/
theorem sbox_bijective : Function.Bijective sbox :=
  Finite.injective_iff_bijective.mp sboxUnmix_sbox_involutive.injective.of_comp

/-- S substitutes each byte by SBOX in its position (41_round_primitives.md R121). -/
theorem byteAt_substituteWord (x : Word) {p : Nat} (hp : p < 4) : byteAt p (substituteWord x) = sbox (byteAt p x) := by
  rw [substituteWord_eq_be32]
  interval_cases p
  · exact byteAt_zero_be32 ..
  · exact byteAt_one_be32 ..
  · exact byteAt_two_be32 ..
  · exact byteAt_three_be32 ..

/-- Settles O11: the users of SBOX name the one function, and S and the gather unit read it byte by byte. -/
theorem sboxIsABijection : Obligations.SboxIsABijection :=
  ⟨sbox_bijective, fun _ => rfl, fun _ => ⟨rfl, rfl⟩, fun x _ hp => byteAt_substituteWord x hp,
    fun v p _ _ hj => lane_gather p v hj⟩

/-! ## CK (R104, R105) -/

/-- The table of R105 is the one that the rule of R104 computes. -/
theorem ck_eq_ofFn_ckByte : ck = Vector.ofFn fun i : Fin 32 =>
    be32 (ckByte (4 * i)) (ckByte (4 * i + 1)) (ckByte (4 * i + 2)) (ckByte (4 * i + 3)) := by
  decide

/-- Settles O12: an entry of the computed table. -/
theorem ckFollowsItsConstruction : Obligations.CkFollowsItsConstruction := by
  intro i hi
  simp only [ck_eq_ofFn_ckByte, Vector.getElem_ofFn, ckByte]

end Sys2Proof.Machine

/-!
# The round primitives (41_round_primitives.md): rotl, S, L, L', T and T'

A word has four equal bytes exactly when rotation by 8 leaves it as it is, so a diffusion layer that commutes with this rotation
keeps such words, as R127 argues.
-/

namespace Sys2Proof.Machine

/-! ## The rotation (R120) -/

/-- The model's rotation is the library's. -/
theorem rotl_eq_rotateLeft (x : Word) {r : Nat} (hr : r < 32) : rotl x r = x.rotateLeft r :=
  (BitVec.rotateLeft_eq_rotateLeftAux_of_lt hr).symm

/-- The bit that a rotation brings to position i. -/
theorem getLsbD_rotl (x : Word) {r i : Nat} (hr : r < 32) (hi : i < 32) :
    (rotl x r).getLsbD i = x.getLsbD ((i + (32 - r)) % 32) := by
  rw [rotl_eq_rotateLeft x hr, BitVec.getLsbD_rotateLeft_of_le hr]
  by_cases h : i < r
  · rw [decide_eq_true h, cond_true]
    congr 1
    omega
  · rw [decide_eq_false h, cond_false, decide_eq_true hi, Bool.true_and]
    congr 1
    omega

/-- Bit i of a word goes to bit (i + r) mod 32. -/
theorem getLsbD_rotl_add (x : Word) {r i : Nat} (hr : r < 32) (hi : i < 32) :
    (rotl x r).getLsbD ((i + r) % 32) = x.getLsbD i := by
  rw [getLsbD_rotl x hr (Nat.mod_lt _ (by decide))]
  congr 1
  omega

@[simp] theorem rotl_zero (r : Nat) : rotl 0 r = 0 := by simp [rotl]

/-- Every bit of the word is 1, wherever it comes from. -/
theorem rotl_allOnes {r : Nat} (hr : r < 32) : rotl (BitVec.allOnes 32) r = BitVec.allOnes 32 := by
  refine BitVec.eq_of_getLsbD_eq fun i hi => ?_
  rw [getLsbD_rotl _ hr hi, BitVec.getLsbD_allOnes, BitVec.getLsbD_allOnes, decide_eq_true hi,
    decide_eq_true (Nat.mod_lt _ (by decide))]

/-- Rotation is linear. -/
theorem rotl_xor (a b : Word) {r : Nat} (hr : r < 32) : rotl (a ^^^ b) r = rotl a r ^^^ rotl b r := by
  refine BitVec.eq_of_getLsbD_eq fun i hi => ?_
  simp only [BitVec.getLsbD_xor, getLsbD_rotl _ hr hi]

/-- Rotations commute. -/
theorem rotl_rotl_comm (x : Word) {r s : Nat} (hr : r < 32) (hs : s < 32) : rotl (rotl x r) s = rotl (rotl x s) r := by
  refine BitVec.eq_of_getLsbD_eq fun i hi => ?_
  have hlt (n : Nat) : n % 32 < 32 := Nat.mod_lt _ (by decide)
  rw [getLsbD_rotl _ hs hi, getLsbD_rotl _ hr (hlt _), getLsbD_rotl _ hr hi, getLsbD_rotl _ hs (hlt _)]
  congr 1
  omega

/-- Settles O13: the formula is the definition's own, and `getLsbD_rotl_add` says where each bit goes. -/
theorem rotlMovesEachBitLeft : Obligations.RotlMovesEachBitLeft :=
  fun x r _ hr => ⟨rfl, fun _ hi => getLsbD_rotl_add x hr hi, rotl_zero r, rotl_allOnes hr⟩

/-! ## The substitution (R121) -/

/-- A word is its four bytes. -/
theorem word_ext_of_bytes {x y : Word} (h : ∀ p, p < 4 → byteAt p x = byteAt p y) : x = y := by
  rw [← be32_bytes x, ← be32_bytes y, h 3 (by decide), h 2 (by decide), h 1 (by decide), h 0 (by decide)]

/-- S is injective because SBOX is, byte by byte. -/
theorem substituteWord_injective : Function.Injective substituteWord := by
  intro x y h
  refine word_ext_of_bytes fun p hp => sbox_bijective.injective ?_
  rw [← byteAt_substituteWord x hp, ← byteAt_substituteWord y hp, h]

/-- Settles O14: words are finitely many, so the injection S is a bijection. -/
theorem substituteWordIsABytewiseBijection : Obligations.SubstituteWordIsABytewiseBijection :=
  ⟨fun _ => rfl, fun x _ hp => byteAt_substituteWord x hp, Finite.injective_iff_bijective.mp substituteWord_injective,
    by decide, by decide⟩

/-! ## The diffusion layers (R122, R123, R127) -/

/-- L is a sum of rotations, so it is linear as they are. -/
theorem diffusionL_xor (a b : Word) : diffusionL (a ^^^ b) = diffusionL a ^^^ diffusionL b := by
  simp (disch := decide) only [diffusionL, rotl_xor]
  ac_rfl

/-- So is L'. -/
theorem diffusionL'_xor (a b : Word) : diffusionL' (a ^^^ b) = diffusionL' a ^^^ diffusionL' b := by
  simp (disch := decide) only [diffusionL', rotl_xor]
  ac_rfl

/-- L commutes with every rotation, as rotations commute with one another. -/
theorem diffusionL_rotl (a : Word) {r : Nat} (hr : r < 32) : diffusionL (rotl a r) = rotl (diffusionL a) r := by
  simp (disch := decide) only [diffusionL, rotl_xor _ _ hr, rotl_rotl_comm a hr]

/-- So does L'. -/
theorem diffusionL'_rotl (a : Word) {r : Nat} (hr : r < 32) : diffusionL' (rotl a r) = rotl (diffusionL' a) r := by
  simp (disch := decide) only [diffusionL', rotl_xor _ _ hr, rotl_rotl_comm a hr]

/-! ## Words of four equal bytes (R127) -/

/-- Rotation by 8 moves each byte one position up. -/
theorem rotl_eight_be32 (a b c d : Byte) : rotl (be32 a b c d) 8 = be32 b c d a := by
  unfold rotl be32
  ext i hi
  simp only [BitVec.getElem_or, BitVec.getElem_shiftLeft, BitVec.getElem_ushiftRight, BitVec.getLsbD_or,
    BitVec.getLsbD_shiftLeft, BitVec.getLsbD_setWidth, BitVec.getElem_setWidth]
  interval_cases i <;> simp

/-- A word that rotation by 8 leaves as it is has four equal bytes. -/
theorem exists_eq_be32_of_rotl_eight {x : Word} (h : rotl x 8 = x) : ∃ v : Byte, x = be32 v v v v := by
  rw [← be32_bytes x, rotl_eight_be32] at h
  have h3 := congrArg (byteAt 3) h
  have h2 := congrArg (byteAt 2) h
  have h1 := congrArg (byteAt 1) h
  simp only [byteAt_three_be32, byteAt_two_be32, byteAt_one_be32] at h1 h2 h3
  refine ⟨byteAt 0 x, ?_⟩
  conv_lhs => rw [← be32_bytes x, ← h3, ← h2, ← h1]

/-- A function of words that commutes with rotation by 8 keeps the words of four equal bytes. -/
theorem exists_eq_be32_of_commutes {f : Word → Word} (hf : ∀ x, f (rotl x 8) = rotl (f x) 8) (v : Byte) :
    ∃ w : Byte, f (be32 v v v v) = be32 w w w w :=
  exists_eq_be32_of_rotl_eight (by rw [← hf, rotl_eight_be32])

/-- L keeps the words of four equal bytes. -/
theorem diffusionL_equal_bytes (v : Byte) : ∃ l : Byte, diffusionL (be32 v v v v) = be32 l l l l :=
  exists_eq_be32_of_commutes (fun x => diffusionL_rotl x (by decide)) v

/-- So does L'. -/
theorem diffusionL'_equal_bytes (v : Byte) : ∃ l : Byte, diffusionL' (be32 v v v v) = be32 l l l l :=
  exists_eq_be32_of_commutes (fun x => diffusionL'_rotl x (by decide)) v

/-- S substitutes the four equal bytes alike. -/
theorem substituteWord_equal_bytes (v : Byte) :
    substituteWord (be32 v v v v) = be32 (sbox v) (sbox v) (sbox v) (sbox v) := by
  simp only [substituteWord_eq_be32, byteAt_three_be32, byteAt_two_be32, byteAt_one_be32, byteAt_zero_be32]

/-- S, L, L', T and T' keep the words of four equal bytes; T and T' do as S and then L or L' does. -/
theorem primitives_keep_equal_bytes (v : Byte) : ∃ u l l' t t' : Byte,
    substituteWord (be32 v v v v) = be32 u u u u ∧
    diffusionL (be32 v v v v) = be32 l l l l ∧ diffusionL' (be32 v v v v) = be32 l' l' l' l' ∧
    transformT (be32 v v v v) = be32 t t t t ∧ transformT' (be32 v v v v) = be32 t' t' t' t' := by
  have hS := substituteWord_equal_bytes v
  obtain ⟨l, hl⟩ := diffusionL_equal_bytes v
  obtain ⟨l', hl'⟩ := diffusionL'_equal_bytes v
  obtain ⟨t, ht⟩ := diffusionL_equal_bytes (sbox v)
  obtain ⟨t', ht'⟩ := diffusionL'_equal_bytes (sbox v)
  exact ⟨sbox v, l, l', t, t', hS, hl, hl', by rw [transformT, hS, ht], by rw [transformT', hS, ht']⟩

/-- Settles O15: linearity and the byte rotations come from those of each rotation, the equal bytes from the byte rotations. -/
theorem diffusionLayersAreLinearAndByteSymmetric : Obligations.DiffusionLayersAreLinearAndByteSymmetric :=
  ⟨fun _ => rfl, fun _ => rfl, by decide, by decide, diffusionL_xor, diffusionL'_xor,
    fun a k _ hk => ⟨diffusionL_rotl a (by omega), diffusionL'_rotl a (by omega)⟩,
    primitives_keep_equal_bytes, by decide, by decide⟩

end Sys2Proof.Machine

/-!
# The key schedule family (42_key_schedule.md): KEYEXP writes the key schedule of KEYB

The model gives the round keys window by window; R140 gives one sequence of words K[0..35] in which every window is a stretch. That
sequence is the first window followed by the round keys, and one round drops its first word, so the recurrence is an induction on the
words of CK.
-/

namespace Sys2Proof.Machine

open Sys2Proof.Safety

/-! ## The sequence K of R140 -/

/-- The sequence K of R140: the four words of the first window k, then the round keys that a list of CK words gives from it. -/
def keyWords (k : Block) (cs : List Word) : List Word := k.x0 :: k.x1 :: k.x2 :: k.x3 :: keyRounds k cs

/-- After its first word, the sequence is that of the next window. -/
theorem keyWords_cons (k : Block) (c : Word) (cs : List Word) :
    keyWords k (c :: cs) = k.x0 :: keyWords (keyRound k c) cs := rfl

/-- The recurrence of R140, for any first window and any list of CK words. -/
theorem keyWords_recurrence (k : Block) (cs : List Word) (i : Nat) (h : i < cs.length) :
    (keyWords k cs).getD (i + 4) 0 = (keyWords k cs).getD i 0 ^^^ transformT' ((keyWords k cs).getD (i + 1) 0 ^^^
      (keyWords k cs).getD (i + 2) 0 ^^^ (keyWords k cs).getD (i + 3) 0 ^^^ cs[i]) := by
  induction cs generalizing k i with
  | nil => cases h
  | cons c cs ih =>
    cases i with
    | zero => rfl
    | succ i =>
      simp only [keyWords_cons, List.getD_cons_succ, List.getElem_cons_succ]
      exact ih (keyRound k c) i (Nat.lt_of_succ_lt_succ h)

/-- K[i] of R140 for the master key mk. -/
def scheduleWord (mk : Block) (i : Nat) : Word := (keyWords (maskKey mk) ck.toList).getD i 0

theorem scheduleWord_recurrence (mk : Block) {i : Nat} (h : i < 32) :
    scheduleWord mk (i + 4) = scheduleWord mk i ^^^ transformT' (scheduleWord mk (i + 1) ^^^ scheduleWord mk (i + 2) ^^^
      scheduleWord mk (i + 3) ^^^ ck[i]) :=
  keyWords_recurrence (maskKey mk) ck.toList i (by simpa using h)

/-- The round keys are K[4..35]. -/
theorem keySchedule_getElem (mk : Block) {i : Nat} (h : i < 32) : (keySchedule mk)[i] = scheduleWord mk (i + 4) := by
  have hlen : i < (keyRounds (maskKey mk) ck.toList).length := by simpa [keyRounds_length] using h
  simp only [scheduleWord, keyWords, List.getD_cons_succ, List.getD_eq_getElem _ _ hlen]
  rfl

/-! ## KEYEXP and its word (R141) -/

/-- KEYEXP as an equation: it completes in every state. -/
theorem exec_keyexp (s : State) : exec .keyexp s = .next ((s.setRk (keySchedule (masterKey s.keyb))).setKsv true) := rfl

/-- OP 0 and OP 1 have one legal word each, the OP's own number: any other word of theirs is illegal (30_encoding.md R76). -/
theorem decode_error_of_fieldOp {c : Word} {q : Nat} (hq : q = 0 ∨ q = 1) (hop : fieldOp c = q) (hne : c.toNat ≠ q) :
    ∃ e, decode c = .error e := by
  rw [decode_eq_error_iff, no_row_iff_listed]
  have hbit : c.extractLsb' 5 27 ≠ 0 ∨ fieldDir c = 1 := by
    have hlt := c.isLt
    rw [ne_eq, field_eq_zero_iff, fieldDir_eq]
    rw [fieldOp_eq] at hop
    omega
  obtain hrest | hdir := hbit
  · exact .inr (.inl ⟨by omega, hrest⟩)
  · exact .inr (.inr (.inl ⟨by omega, hdir⟩))

/-- The words of a row run the row's command, and are dropped while ERR = 1 (30_encoding.md R75). -/
theorem runsOnItsWords_of_mem_row {r : Row} (hr : r ∈ opcodeRows) : RunsOnItsWords r.pattern r.mask r.build := by
  intro s a c rest hreq hc hsel
  rw [step_of_commandWrite hreq hc]
  cases he : s.err with
  | true => exact writeCmd_of_err he
  | false => exact writeCmd_of_decode he (decode_of_mem_row hr hsel)

/-- Settles O10: RK is K[4..35] of `scheduleWord` at KEYB's words, and the word is the one of its OP that is legal. -/
theorem keyexpWritesTheKeySchedule : Obligations.KeyexpWritesTheKeySchedule := by
  refine ⟨fun s => ⟨_, scheduleWord (masterKey s.keyb), exec_keyexp s, rfl, rfl, rfl, rfl, ?recurrence, ?roundKeys,
    fun i hi => rkDec_get _ hi, rfl, rfl, rfl, rfl, rfl, rfl, rfl⟩, fun c => decode_eq_keyexp_iff, ?illegal,
    runsOnItsWords_of_mem_row (r := rowKeyexp) (by simp [opcodeRows])⟩
  case recurrence => exact fun i hi => scheduleWord_recurrence _ hi
  case roundKeys => exact fun i hi => keySchedule_getElem _ hi
  case illegal =>
    intro c hop hne
    have hop' : fieldOp c = 1 := congrArg BitVec.toNat hop
    exact decode_error_of_fieldOp (.inr rfl) hop' fun h => hne (BitVec.eq_of_toNat_eq h)

end Sys2Proof.Machine

/-!
# The scalar engine family (43_scalar_engine.md): F is the recurrence, its own inverse under reversed keys, and ENC1 and DEC1 run it

R160 gives F by a window of four words that moves one word per round. The words X0..X35 of R164 are the first words of the windows, so
the recurrence is one round's definition. A round after the reversal of R164 takes back the round before it; so the reversed keys undo
F round by round.
-/

namespace Sys2Proof.Machine

open Sys2Proof.Safety

/-! ## The windows of F (R160, R164) -/

/-- The window (X[r], X[r+1], X[r+2], X[r+3]) after r rounds from x with the round keys k 0, k 1, ..; R164 needs the words up to X35,
so the windows go on after the last round. -/
def roundWindow (x : Block) (k : Nat → Word) : Nat → Block
  | 0 => x
  | r + 1 => roundF (roundWindow x k r) (k r)

/-- X[r] of R164: the first word of the window after r rounds. -/
def roundWord (x : Block) (k : Nat → Word) (r : Nat) : Word := (roundWindow x k r).x0

/-- Each round moves the window one word on. -/
theorem roundWindow_eq_roundWords (x : Block) (k : Nat → Word) (r : Nat) :
    roundWindow x k r = ⟨roundWord x k r, roundWord x k (r + 1), roundWord x k (r + 2), roundWord x k (r + 3)⟩ := rfl

theorem roundWord_recurrence (x : Block) (k : Nat → Word) (r : Nat) :
    roundWord x k (r + 4) =
      roundWord x k r ^^^ transformT (roundWord x k (r + 1) ^^^ roundWord x k (r + 2) ^^^ roundWord x k (r + 3) ^^^ k r) := rfl

/-- The rounds over a list of round keys, one after another, give the windows. -/
theorem foldl_roundF_take (x : Block) (ks : List Word) {r : Nat} (hr : r ≤ ks.length) :
    (ks.take r).foldl roundF x = roundWindow x (fun i => ks.getD i 0) r := by
  induction r with
  | zero => rfl
  | succ r ih =>
    have hlt : r < ks.length := hr
    rw [← List.take_append_getElem hlt, List.foldl_append, ih (Nat.le_of_lt hlt), ← List.getD_eq_getElem ks 0 hlt]
    rfl

/-- F returns the window after round 31, reversed. -/
theorem blockF_eq_reversed_roundWindow (x : Block) (rk : Vector Word 32) :
    blockF x rk = Block.reversed (roundWindow x (fun i => rk.toList.getD i 0) 32) := by
  rw [← foldl_roundF_take x rk.toList (by simp), List.take_of_length_le (by simp), blockF]

/-- Settles O16: the words are the first words of the windows. -/
theorem blockFunctionRunsTheRecurrence : Obligations.BlockFunctionRunsTheRecurrence := by
  intro x rk
  refine ⟨roundWord x fun i => rk.toList.getD i 0, rfl, rfl, rfl, rfl, ?recurrence, ?output⟩
  case recurrence =>
    intro r hr
    have hkey : rk.toList.getD r 0 = rk[r] := List.getD_eq_getElem _ _ (by simpa using hr)
    rw [roundWord_recurrence, hkey]
  case output => rw [blockF_eq_reversed_roundWindow, roundWindow_eq_roundWords, Block.reversed]

/-! ## Decryption (R161) -/

@[simp] theorem Block.reversed_reversed (x : Block) : Block.reversed (Block.reversed x) = x := rfl

/-- A round on the reversed window takes back the round with the same key: T gets the same argument, and xor cancels it. -/
theorem roundF_reversed_roundF (x : Block) (k : Word) : roundF (Block.reversed (roundF x k)) k = Block.reversed x := by
  have harg : x.x3 ^^^ x.x2 ^^^ x.x1 ^^^ k = x.x1 ^^^ x.x2 ^^^ x.x3 ^^^ k := by ac_rfl
  simp only [roundF, Block.reversed, harg]
  rw [BitVec.xor_assoc, BitVec.xor_self, BitVec.xor_zero]

/-- The same for any list of round keys: the last round is the first to be taken back. -/
theorem foldl_roundF_reverse (x : Block) (ks : List Word) :
    ks.reverse.foldl roundF (Block.reversed (ks.foldl roundF x)) = Block.reversed x := by
  induction ks generalizing x with
  | nil => rfl
  | cons k ks ih =>
    rw [List.foldl_cons, List.reverse_cons, List.foldl_append, ih (roundF x k)]
    exact roundF_reversed_roundF x k

/-- F under the round keys in reverse order undoes F. -/
theorem blockF_reverse_blockF (x : Block) (rk : Vector Word 32) : blockF (blockF x rk) rk.reverse = x := by
  rw [blockF, blockF, Vector.toList_reverse, foldl_roundF_reverse, Block.reversed_reversed]

/-- The index 31 - i of R161 reverses a sequence of 32 round keys. -/
theorem ofFn_eq_reverse (rk : Vector Word 32) : (Vector.ofFn fun i : Fin 32 => rk[31 - i.val]) = rk.reverse := by
  ext i hi
  simp

/-- Settles O17: the keys of R161 are the sequence reversed, and under it each round is taken back. -/
theorem decryptionUndoesEncryption : Obligations.DecryptionUndoesEncryption := by
  intro x rk
  rw [ofFn_eq_reverse, blockF_reverse_blockF]

/-! ## The transform of one block (R162) -/

/-- Storing back what a block held before it was overwritten restores the data buffer. -/
theorem storeBlock_storeBlock_loadBlock {m : Memory} (hw : m.wf = true) {b : Nat} (hb : b < 8) (y : Block) :
    storeBlock (storeBlock m b y) b (loadBlock m b) = m := by
  have hy := wf_storeBlock hw hb y
  refine wf_ext_blocks (wf_storeBlock hy hb _) hw fun c _ => ?_
  by_cases hc : b = c
  · rw [← hc, loadBlock_storeBlock_same hy hb]
  · rw [loadBlock_storeBlock_other _ _ hc, loadBlock_storeBlock_other _ _ hc]

theorem loadBlock_cryptBlock {s : State} (hw : CanonicalDb s) {b : Nat} (hb : b < 8) (rk : Vector Word 32) :
    loadBlock (cryptBlock b rk s).db b = blockF (loadBlock s.db b) rk := by
  rw [cryptBlock_db, loadBlock_storeBlock_same hw hb]

@[simp] theorem rkDec_cryptBlock (b : Nat) (rk : Vector Word 32) (s : State) : rkDec (cryptBlock b rk s) = rkDec s :=
  rkDec_setDb s _

/-- Round keys that undo F undo the transform of a block, and the whole state is as before. -/
theorem cryptBlock_cryptBlock_of_inverse {s : State} (hw : CanonicalDb s) {b : Nat} (hb : b < 8) {rk rk' : Vector Word 32}
    (hinv : ∀ x, blockF (blockF x rk) rk' = x) : cryptBlock b rk' (cryptBlock b rk s) = s := by
  rw [cryptBlock, loadBlock_cryptBlock hw hb, hinv, cryptBlock_db, storeBlock_storeBlock_loadBlock hw hb, cryptBlock,
    setDb_setDb, setDb_self]

/-! ## ENC1 and DEC1 (R162, R163) -/

/-- What ENC1 and DEC1 do with a key schedule: they complete, transform their block and leave everything else alone. -/
theorem scalarCommand_transforms {s : State} {b : Nat} (hb : b < 8) (hk : s.ksv = true) (rk : Vector Word 32) :
    ∃ t, scalarCommand b rk s = .next t ∧ OnlyDbMayDiffer s t ∧
      (∀ a, a < wordAddr b 0 ∨ wordAddr b 0 + 16 ≤ a → t.db.read a = s.db.read a) ∧
      (CanonicalDb s → loadBlock t.db b = blockF (loadBlock s.db b) rk) := by
  refine ⟨cryptBlock b rk s, by rw [scalarCommand, if_pos hb, if_pos hk], ?frame, ?bytes, ?block⟩
  case frame => simp [OnlyDbMayDiffer]
  case bytes =>
    intro a ha
    rw [cryptBlock_db, read_storeBlock_other _ _ ha]
  case block => exact fun hw => loadBlock_cryptBlock hw hb rk

/-- Without a key schedule they record NO_KEY, if no error stands. -/
theorem scalarCommand_without_key {s : State} {b : Nat} (hb : b < 8) (hk : s.ksv = false) (rk : Vector Word 32) :
    scalarCommand b rk s = .next (if s.err then s else s.setError true 2) := by
  rw [scalarCommand, if_pos hb, if_neg (by simp [hk])]
  rfl

/-- Settles O18: ENC1 b is the shared command with RK in order. -/
theorem enc1TransformsItsBlock : Obligations.Enc1TransformsItsBlock :=
  ⟨fun s _ hb hk => scalarCommand_transforms hb hk s.rk, fun s _ hb hk => scalarCommand_without_key hb hk s.rk,
    runsOnItsWords_of_mem_row (r := rowEnc1) (by simp [opcodeRows])⟩

/-- DEC1 b right after ENC1 b restores the state. -/
theorem performAll_enc1_dec1 {s : State} {b : Nat} (hb : b < 8) (hw : CanonicalDb s) (hk : s.ksv = true) :
    performAll [.enc1 b, .dec1 b] s = .next s := by
  have henc := exec_enc1_of_ksv hb hk
  have hkeys (x : Block) : blockF (blockF x (rkEnc s)) (rkDec s) = x := decryptionUndoesEncryption x s.rk
  have hdec : exec (.dec1 b) (cryptBlock b (rkEnc s) s) = .next s := by
    rw [exec_dec1_of_ksv hb (by rwa [cryptBlock_ksv]), rkDec_cryptBlock, cryptBlock_cryptBlock_of_inverse hw hb hkeys]
  simp only [performAll, henc, hdec]

/-- Settles O19: DEC1 b is the shared command with RK reversed, which undoes the F of ENC1 b. -/
theorem dec1TransformsItsBlock : Obligations.Dec1TransformsItsBlock :=
  ⟨fun s _ hb hk => scalarCommand_transforms hb hk (rkDec s), fun s _ hb hk => scalarCommand_without_key hb hk (rkDec s),
    fun _ _ hb hw hk => performAll_enc1_dec1 hb hw hk,
    runsOnItsWords_of_mem_row (r := rowDec1) (by simp [opcodeRows])⟩

end Sys2Proof.Machine

/-!
# The vector engine family (44_vector_engine.md): each lane is the scalar engine, and the commands run all lanes

The operations of R181 and R182 act lane by lane, so one round of F8 is one round of F in each lane, and F8 is F by the fold
over the round keys. Two canonical data buffers with the same eight blocks are equal, so the commands' effects are compared
block by block.
-/

namespace Sys2Proof.Machine

open Sys2Proof.Safety

/-! ## Packing and unpacking (R180) -/

theorem getLsbD_lane (v : LaneReg) (j : Nat) {k : Nat} (hk : k < 32) : (lane v j).getLsbD k = v.getLsbD (32 * j + k) := by
  rw [lane, BitVec.getLsbD_extractLsb', decide_eq_true hk, Bool.true_and]

/-- Unpacking what was packed leaves every block, so the data buffer, as it was. -/
theorem storeLaneBlock_loadLaneBlock {m : Memory} (hw : m.wf = true) : storeLaneBlock m (loadLaneBlock m) = m :=
  wf_ext_blocks (wf_storeLaneBlock hw _) hw fun _ hb => by
    rw [loadBlock_storeLaneBlock hw _ hb, laneBlock_loadLaneBlock m hb]

/-- Settles O20: block j and lane j of the four registers are equal word by word. -/
theorem lanesArePackedByBlock : Obligations.LanesArePackedByBlock := by
  refine ⟨fun v j k _ hk => getLsbD_lane v j hk, fun m j hj => ?packing, fun m v j hw hj => ?unpacking,
    fun m hw => storeLaneBlock_loadLaneBlock hw⟩
  case packing => exact Block.mk.inj (laneBlock_loadLaneBlock m hj)
  case unpacking => exact Block.mk.inj (loadBlock_storeLaneBlock hw v hj)

/-! ## The lane-wise operations and the gather unit (R181, R182) -/

@[simp] theorem lane_diffusionL8 (a : LaneReg) {j : Nat} (hj : j < 8) :
    lane (diffusionL8 a) j = diffusionL (lane a j) := by
  simp only [diffusionL8, diffusionL, lane_xor, lane_rotl8 _ _ hj]

@[simp] theorem lane_diffusionL'8 (a : LaneReg) {j : Nat} (hj : j < 8) :
    lane (diffusionL'8 a) j = diffusionL' (lane a j) := by
  simp only [diffusionL'8, diffusionL', lane_xor, lane_rotl8 _ _ hj]

/-- Settles O21: the operations are built lane by lane, and the diffusion layers from them. -/
theorem laneOperationsActLaneByLane : Obligations.LaneOperationsActLaneByLane := fun a b k r _ hj =>
  ⟨lane_xor a b _, lane_rotl8 a r hj, lane_bcast k hj, lane_diffusionL8 a hj, lane_diffusionL'8 a hj⟩

/-- The reassembly of R182: the four lookups of a lane, each shifted back to the byte position it came from. -/
theorem lane_gather8_eq_lookups (v : LaneReg) {j : Nat} (hj : j < 8) :
    lane (gather8 v) j = sbox32 (byteAt 0 (lane v j)) ||| (sbox32 (byteAt 1 (lane v j)) <<< 8) |||
      (sbox32 (byteAt 2 (lane v j)) <<< 16) ||| (sbox32 (byteAt 3 (lane v j)) <<< 24) := by
  rw [gather8, lane_ofLanes _ hj]
  simp only [lane_gather _ _ hj]

/-- Four parts of a word joined in either order. -/
theorem or_four_reverse (a b c d : Word) : a ||| b ||| c ||| d = d ||| c ||| b ||| a := by ac_rfl

/-- The gather unit is S on each lane: S joins the same four bytes, the most significant first. -/
@[simp] theorem lane_gather8 (v : LaneReg) {j : Nat} (hj : j < 8) : lane (gather8 v) j = substituteWord (lane v j) := by
  rw [lane_gather8_eq_lookups v hj, or_four_reverse]
  rfl

/-- Settles O22: the lookups of R182, which are those of S. -/
theorem gatherUnitSubstitutesEachLane : Obligations.GatherUnitSubstitutesEachLane := fun v _ hj =>
  ⟨lane_gather8_eq_lookups v hj, lane_gather8 v hj⟩

/-! ## F8 is F in each lane (R183, R186) -/

/-- One round of F8 is one round of F in each lane. -/
theorem laneBlock_roundF8 (x : LaneBlock) (k : Word) {j : Nat} (hj : j < 8) :
    (roundF8 x k).laneBlock j = roundF (x.laneBlock j) k := by
  simp [roundF8, roundF, LaneBlock.laneBlock, transformT, hj]

/-- F8 is F in each lane, round by round. -/
theorem laneBlock_blockF8 (x : LaneBlock) (rk : Vector Word 32) {j : Nat} (hj : j < 8) :
    (blockF8 x rk).laneBlock j = blockF (x.laneBlock j) rk := by
  have hrounds : rk.toList.foldl roundF (x.laneBlock j) = (rk.toList.foldl roundF8 x).laneBlock j :=
    List.foldl_hom (fun y => y.laneBlock j) fun y k => (laneBlock_roundF8 y k hj).symm
  rw [blockF, hrounds]
  rfl

/-- Settles O23: the fold of `laneBlock_roundF8` over the round keys, and the reversal in each lane. -/
theorem vectorEngineEqualsScalarEngine : Obligations.VectorEngineEqualsScalarEngine := fun x rk _ hj =>
  laneBlock_blockF8 x rk hj

/-! ## The transform of all eight blocks (R184) -/

/-- The data buffer after F8 on its eight blocks, as ENC8 and DEC8 leave it (`vectorCommand_of_ksv`). -/
def cryptDb8 (rk : Vector Word 32) (m : Memory) : Memory := storeLaneBlock m (blockF8 (loadLaneBlock m) rk)

theorem wf_cryptDb8 {m : Memory} (hw : m.wf = true) (rk : Vector Word 32) : (cryptDb8 rk m).wf = true :=
  wf_storeLaneBlock hw _

theorem loadBlock_cryptDb8 {m : Memory} (hw : m.wf = true) (rk : Vector Word 32) {j : Nat} (hj : j < 8) :
    loadBlock (cryptDb8 rk m) j = blockF (loadBlock m j) rk := by
  rw [cryptDb8, loadBlock_storeLaneBlock hw _ hj, laneBlock_blockF8 _ _ hj, laneBlock_loadLaneBlock m hj]

/-- The four lane-words lie in DB[0..127]. -/
theorem read_cryptDb8_outside (rk : Vector Word 32) (m : Memory) {a : Nat} (ha : 128 ≤ a) :
    (cryptDb8 rk m).read a = m.read a := by
  have hout (i : Nat) : ¬inLaneWord i a := fun h => absurd h.1 (by omega)
  rw [cryptDb8, storeLaneBlock, read_storeLanes_other _ (by decide) _ (hout 3), read_storeLanes_other _ (by decide) _ (hout 2),
    read_storeLanes_other _ (by decide) _ (hout 1), read_storeLanes_other _ (by decide) _ (hout 0)]

/-- Round keys that undo F undo the transform of all blocks. -/
theorem cryptDb8_cryptDb8_of_inverse {m : Memory} (hw : m.wf = true) {rk rk' : Vector Word 32}
    (hinv : ∀ x, blockF (blockF x rk) rk' = x) : cryptDb8 rk' (cryptDb8 rk m) = m := by
  have hw' := wf_cryptDb8 hw rk
  refine wf_ext_blocks (wf_cryptDb8 hw' rk') hw fun b hb => ?_
  rw [loadBlock_cryptDb8 hw' rk' hb, loadBlock_cryptDb8 hw rk hb, hinv]

/-! ## The same as single blocks, one after another, in any order (R184, R186) -/

/-- The data buffer after F on block b, as ENC1 b and DEC1 b leave it (`cryptBlock_setDb`). -/
def cryptDb (rk : Vector Word 32) (m : Memory) (b : Nat) : Memory := storeBlock m b (blockF (loadBlock m b) rk)

theorem cryptBlock_setDb (b : Nat) (rk : Vector Word 32) (s : State) (m : Memory) :
    cryptBlock b rk (s.setDb m) = s.setDb (cryptDb rk m b) := rfl

theorem wf_cryptDb {m : Memory} (hw : m.wf = true) (rk : Vector Word 32) {b : Nat} (hb : b < 8) :
    (cryptDb rk m b).wf = true :=
  wf_storeBlock hw hb _

theorem loadBlock_cryptDb_same {m : Memory} (hw : m.wf = true) (rk : Vector Word 32) {b : Nat} (hb : b < 8) :
    loadBlock (cryptDb rk m b) b = blockF (loadBlock m b) rk :=
  loadBlock_storeBlock_same hw hb _

theorem loadBlock_cryptDb_other (rk : Vector Word 32) (m : Memory) {b c : Nat} (h : b ≠ c) :
    loadBlock (cryptDb rk m b) c = loadBlock m c :=
  loadBlock_storeBlock_other m _ h

theorem wf_foldl_cryptDb {m : Memory} (hw : m.wf = true) (rk : Vector Word 32) {bs : List Nat} (h8 : ∀ b ∈ bs, b < 8) :
    (bs.foldl (cryptDb rk) m).wf = true := by
  induction bs generalizing m with
  | nil => exact hw
  | cons b bs ih =>
    obtain ⟨hb, hbs⟩ := List.forall_mem_cons.mp h8
    rw [List.foldl_cons]
    exact ih (wf_cryptDb hw rk hb) hbs

/-- Single blocks transformed one after another leave every other block alone. -/
theorem loadBlock_foldl_cryptDb_of_notMem (rk : Vector Word 32) (m : Memory) {bs : List Nat} {c : Nat} (hc : c ∉ bs) :
    loadBlock (bs.foldl (cryptDb rk) m) c = loadBlock m c := by
  induction bs generalizing m with
  | nil => rfl
  | cons b bs ih =>
    obtain ⟨hcb, hcbs⟩ : c ≠ b ∧ c ∉ bs := by simpa using hc
    rw [List.foldl_cons, ih _ hcbs, loadBlock_cryptDb_other rk m (Ne.symm hcb)]

/-- Of distinct blocks, each becomes F of what it was before the first of them. -/
theorem loadBlock_foldl_cryptDb_of_mem {m : Memory} (hw : m.wf = true) (rk : Vector Word 32) {bs : List Nat}
    (hd : bs.Nodup) (h8 : ∀ b ∈ bs, b < 8) {c : Nat} (hc : c ∈ bs) :
    loadBlock (bs.foldl (cryptDb rk) m) c = blockF (loadBlock m c) rk := by
  induction bs generalizing m with
  | nil => cases hc
  | cons b bs ih =>
    obtain ⟨hb, hbs⟩ := List.forall_mem_cons.mp h8
    obtain ⟨hnot, hd'⟩ := List.nodup_cons.mp hd
    rw [List.foldl_cons]
    obtain rfl | hmem := List.mem_cons.mp hc
    · rw [loadBlock_foldl_cryptDb_of_notMem rk _ hnot, loadBlock_cryptDb_same hw rk hb]
    · have hbc : b ≠ c := fun h => hnot (h ▸ hmem)
      rw [ih (wf_cryptDb hw rk hb) hd' hbs hmem, loadBlock_cryptDb_other rk m hbc]

/-- The eight blocks at once are the eight blocks one after another, in any order. -/
theorem cryptDb8_eq_foldl_cryptDb {m : Memory} (hw : m.wf = true) (rk : Vector Word 32) {order : List Nat}
    (hp : order.Perm [0, 1, 2, 3, 4, 5, 6, 7]) : cryptDb8 rk m = order.foldl (cryptDb rk) m := by
  have hmem (b : Nat) : b ∈ order ↔ b < 8 := by
    rw [hp.mem_iff]
    exact List.mem_range (n := 8)
  have hd : order.Nodup := hp.nodup_iff.mpr (by decide)
  have h8 : ∀ b ∈ order, b < 8 := fun b => (hmem b).mp
  refine wf_ext_blocks (wf_cryptDb8 hw rk) (wf_foldl_cryptDb hw rk h8) fun b hb => ?_
  rw [loadBlock_cryptDb8 hw rk hb, loadBlock_foldl_cryptDb_of_mem hw rk hd h8 ((hmem b).mpr hb)]

/-- A command that transforms its block whatever the data buffer holds, run on one block after another. -/
theorem performAll_map_of_cryptDb {s : State} {rk : Vector Word 32} {cmd : Nat → Instr}
    (hcmd : ∀ m b, b < 8 → exec (cmd b) (s.setDb m) = .next (s.setDb (cryptDb rk m b))) (m : Memory) {bs : List Nat}
    (h8 : ∀ b ∈ bs, b < 8) : performAll (bs.map cmd) (s.setDb m) = .next (s.setDb (bs.foldl (cryptDb rk) m)) := by
  induction bs generalizing m with
  | nil => rfl
  | cons b bs ih =>
    obtain ⟨hb, hbs⟩ := List.forall_mem_cons.mp h8
    simp only [List.map_cons, performAll, hcmd m b hb, List.foldl_cons]
    exact ih _ hbs

/-! ## ENC8 and DEC8 (R184, R185) -/

theorem vectorCommand_of_ksv {s : State} (hk : s.ksv = true) (rk : Vector Word 32) :
    vectorCommand rk s = .next (s.setDb (cryptDb8 rk s.db)) := if_pos hk

/-- What ENC8 and DEC8 do with a key schedule: they complete, transform every block and leave everything else alone. -/
theorem vectorCommand_transforms {s : State} (hk : s.ksv = true) (rk : Vector Word 32) :
    ∃ t, vectorCommand rk s = .next t ∧ OnlyDbMayDiffer s t ∧ (∀ a, 128 ≤ a → t.db.read a = s.db.read a) ∧
      (CanonicalDb s → ∀ j, j < 8 → loadBlock t.db j = blockF (loadBlock s.db j) rk) := by
  refine ⟨s.setDb (cryptDb8 rk s.db), vectorCommand_of_ksv hk rk, ?frame, ?bytes, ?blocks⟩
  case frame => simp [OnlyDbMayDiffer]
  case bytes =>
    intro a ha
    rw [setDb_db, read_cryptDb8_outside rk s.db ha]
  case blocks =>
    intro hw j hj
    rw [setDb_db, loadBlock_cryptDb8 hw rk hj]

/-- Without a key schedule they record NO_KEY, if no error stands. -/
theorem vectorCommand_without_key {s : State} (hk : s.ksv = false) (rk : Vector Word 32) :
    vectorCommand rk s = .next (if s.err then s else s.setError true 2) := by
  rw [vectorCommand, if_neg (by simp [hk])]
  rfl

/-- With a key schedule they are the scalar command of their direction on the eight blocks in any order. -/
theorem vectorCommand_eq_performAll {s : State} (hw : CanonicalDb s) (hk : s.ksv = true) {rk : Vector Word 32}
    {cmd : Nat → Instr} (hcmd : ∀ m b, b < 8 → exec (cmd b) (s.setDb m) = .next (s.setDb (cryptDb rk m b)))
    {order : List Nat} (hp : order.Perm [0, 1, 2, 3, 4, 5, 6, 7]) :
    vectorCommand rk s = performAll (order.map cmd) s := by
  have h8 : ∀ b ∈ order, b < 8 := fun b hb => (List.mem_range (n := 8)).mp (hp.mem_iff.mp hb)
  rw [vectorCommand_of_ksv hk, cryptDb8_eq_foldl_cryptDb hw rk hp]
  exact (performAll_map_of_cryptDb hcmd s.db h8).symm

/-- A row of R73 with every bit fixed selects its own pattern alone. -/
theorem and_all_eq_iff_eq (c p : Word) : c &&& 0xFFFFFFFF = p ↔ c = p := (and_all_eq_iff c p).trans BitVec.toNat_inj

/-- ENC8 has one word (30_encoding.md R73). -/
theorem decode_eq_enc8_iff (c : Word) : decode c = .ok .enc8 ↔ c = 0x00000003 := by
  rw [decodeSelectsExactlyTheTableRows.1]
  simp only [reduceCtorEq, and_false, and_true, false_or, or_false, and_all_eq_iff_eq]

/-- So has DEC8. -/
theorem decode_eq_dec8_iff (c : Word) : decode c = .ok .dec8 ↔ c = 0x00000013 := by
  rw [decodeSelectsExactlyTheTableRows.1]
  simp only [reduceCtorEq, and_false, and_true, false_or, or_false, and_all_eq_iff_eq]

/-- Settles O24: ENC8 is the shared command with RK in order, and the eight ENC1 act on the same blocks. -/
theorem enc8TransformsAllBlocks : Obligations.Enc8TransformsAllBlocks := by
  refine ⟨fun s hk => vectorCommand_transforms hk (rkEnc s), fun s order hw hk hp => ?anyOrder,
    fun s hk => vectorCommand_without_key hk (rkEnc s), decode_eq_enc8_iff,
    runsOnItsWords_of_mem_row (r := rowEnc8) (by simp [opcodeRows])⟩
  case anyOrder =>
    exact vectorCommand_eq_performAll (rk := rkEnc s) hw hk (fun m _ hb => exec_enc1_of_ksv (s := s.setDb m) hb hk) hp

/-- DEC8 right after ENC8 restores the state. -/
theorem performAll_enc8_dec8 {s : State} (hw : CanonicalDb s) (hk : s.ksv = true) :
    performAll [.enc8, .dec8] s = .next s := by
  have henc : exec .enc8 s = .next (s.setDb (cryptDb8 (rkEnc s) s.db)) := exec_enc8_of_ksv hk
  have hkeys (x : Block) : blockF (blockF x (rkEnc s)) (rkDec s) = x := decryptionUndoesEncryption x s.rk
  have hdec : exec .dec8 (s.setDb (cryptDb8 (rkEnc s) s.db)) = .next s := by
    refine (vectorCommand_of_ksv (by rwa [setDb_ksv]) _).trans ?_
    rw [rkDec_setDb, setDb_setDb, setDb_db, cryptDb8_cryptDb8_of_inverse hw hkeys, setDb_self]
  simp only [performAll, henc, hdec]

/-- Settles O25: DEC8 is the shared command with RK reversed, which undoes the F of ENC8 in every block. -/
theorem dec8TransformsAllBlocks : Obligations.Dec8TransformsAllBlocks := by
  refine ⟨fun s hk => vectorCommand_transforms hk (rkDec s), fun s order hw hk hp => ?anyOrder,
    fun s hw hk => performAll_enc8_dec8 hw hk, fun s hk => vectorCommand_without_key hk (rkDec s), decode_eq_dec8_iff,
    runsOnItsWords_of_mem_row (r := rowDec8) (by simp [opcodeRows])⟩
  case anyOrder =>
    exact vectorCommand_eq_performAll (rk := rkDec s) hw hk (fun m _ hb => exec_dec1_of_ksv (s := s.setDb m) hb hk) hp

/-! ## SUB8, TAU8 and TAUK8 (R187 to R189) -/

/-- A byte outside the eight words at position w is outside the lane-word: the word of the byte's own block is one of the eight. -/
theorem not_inLaneWord_of_outside {w a : Nat} (h : ∀ j, j < 8 → a < wordAddr j w ∨ wordAddr j w + 4 ≤ a) :
    ¬inLaneWord w a := by
  rintro ⟨ha, hpos⟩
  have hout := h (a / 16) (by omega)
  unfold wordAddr at hout
  omega

/-- What the three commands share: where f acts as g in each lane, g transforms each word at position w, whatever KSV,
and everything else is left alone. -/
theorem laneWordCommand_transforms {f : LaneReg → LaneReg} {g : Word → Word}
    (hf : ∀ v j, j < 8 → lane (f v) j = g (lane v j)) (s : State) {w : Nat} (hw : w < 4) :
    ∃ t, laneWordCommand f w s = .next t ∧ OnlyDbMayDiffer s t ∧
      (∀ a, (∀ j, j < 8 → a < wordAddr j w ∨ wordAddr j w + 4 ≤ a) → t.db.read a = s.db.read a) ∧
      (CanonicalDb s → ∀ j, j < 8 → memRead t.db (wordAddr j w) = g (memRead s.db (wordAddr j w))) := by
  refine ⟨s.setDb (storeLanes s.db w (f (loadLanes s.db w))), if_pos hw, ?frame, ?bytes, ?words⟩
  case frame => simp [OnlyDbMayDiffer]
  case bytes =>
    intro a ha
    rw [setDb_db, read_storeLanes_other s.db hw _ (not_inLaneWord_of_outside ha)]
  case words =>
    intro hm j hj
    rw [setDb_db, memRead_storeLanes_same hm hw hj, hf _ j hj, loadLanes, lane_ofLanes _ hj]

/-- Settles O28: the gather unit is S in each lane. -/
theorem sub8SubstitutesItsLaneWord : Obligations.Sub8SubstitutesItsLaneWord :=
  ⟨fun s _ hw => laneWordCommand_transforms (fun v _ hj => lane_gather8 v hj) s hw,
    runsOnItsWords_of_mem_row (r := rowSub8) (by simp [opcodeRows])⟩

/-- L8 after the gather unit is T in each lane (R183, R188). -/
theorem lane_diffusionL8_gather8 (v : LaneReg) {j : Nat} (hj : j < 8) :
    lane (diffusionL8 (gather8 v)) j = transformT (lane v j) := by
  rw [lane_diffusionL8 _ hj, lane_gather8 v hj, transformT]

/-- L'8 after the gather unit is T' in each lane (R189). -/
theorem lane_diffusionL'8_gather8 (v : LaneReg) {j : Nat} (hj : j < 8) :
    lane (diffusionL'8 (gather8 v)) j = transformT' (lane v j) := by
  rw [lane_diffusionL'8 _ hj, lane_gather8 v hj, transformT']

/-- Settles O29: L8 after the gather unit is T in each lane. -/
theorem tau8TransformsItsLaneWord : Obligations.Tau8TransformsItsLaneWord :=
  ⟨fun s _ hw => laneWordCommand_transforms (fun v _ hj => lane_diffusionL8_gather8 v hj) s hw,
    runsOnItsWords_of_mem_row (r := rowTau8) (by simp [opcodeRows])⟩

/-- Settles O30: L'8 after the gather unit is T' in each lane. -/
theorem tauk8TransformsItsLaneWord : Obligations.Tauk8TransformsItsLaneWord :=
  ⟨fun s _ hw => laneWordCommand_transforms (fun v _ hj => lane_diffusionL'8_gather8 v hj) s hw,
    runsOnItsWords_of_mem_row (r := rowTauk8) (by simp [opcodeRows])⟩

end Sys2Proof.Machine

/-!
# The control and host access family (45_control_and_host_access.md): NOP, and the reads and writes of the registers

A well-formed access at a register's offset is that register's read or write (R207), so each statement is one equation of `readReg` or
`writeReg`, and the laws of the key register and of the data buffer say what the bytes are afterwards.
-/

namespace Sys2Proof.Machine

open Sys2Proof.Safety

/-! ## Steps by the register first in the requests (R207) -/

/-- What a register reads as does not depend on the accesses still to come. -/
@[simp] theorem readReg_setRequests (r : Reg) (s : State) (rest : List HostEvent) :
    readReg r (s.setRequests rest) = readReg r s := by
  cases r <;> rfl

/-- With a register's read first, a step answers the register's value. -/
theorem step_of_registerRead {s : State} {r : Reg} {d : Word} {rest : List HostEvent}
    (h : s.requests = .access ⟨.read, r.offset, 32, d⟩ :: rest) :
    step s = .next ((s.setRequests rest).respond (readReg r s)) := by
  rw [step_of_access h, hostStep_of_read _ rfl (target_eq_some_iff.mpr ⟨rfl, rfl⟩), readReg_setRequests]

/-- With a register's write first, a step is that write. -/
theorem step_of_registerWrite {s : State} {r : Reg} {v : Word} {rest : List HostEvent}
    (h : s.requests = .access ⟨.write, r.offset, 32, v⟩ :: rest) : step s = writeReg r v (s.setRequests rest) := by
  rw [step_of_access h, hostStep_of_write _ rfl (target_eq_some_iff.mpr ⟨rfl, rfl⟩)]

/-! ## Reads (R201) -/

/-- A status bit as a word is 1 or 0 (10_state.md R25). -/
theorem bitWord_eq_ite (b : Bool) : bitWord b = if b then 1 else 0 := by
  cases b <;> rfl

/-- Settles O33: a step answers `readReg`, whose value R201 writes out register by register. -/
theorem readReturnsTheRegister : Obligations.ReadReturnsTheRegister := by
  intro s r d rest hr
  rw [step_of_registerRead hr]
  cases r with
  | status => rw [readReg, statusWord, bitWord_eq_ite, bitWord_eq_ite]
  | cmd | key n | rk i | dbuf n => rfl

/-! ## Writes (R202 to R204, R206) -/

/-- Byte p of KEYn after a key write, counted from the most significant end (20_memory.md R55). -/
theorem keyWrite_get_own (k : Vector Byte 16) (n : Fin 4) (v : Word) {p : Nat} (hp : p < 4) :
    (keyWrite k n v)[4 * n.val + p] = byteAt (3 - p) v := by
  have hreg : (4 * n.val + p) / 4 = n.val := by omega
  have hpos : (4 * n.val + p) % 4 = p := by omega
  rw [keyWrite_get, if_pos hreg, hpos]

/-- Settles O34: the four bytes of the register written are BYTES_BE(v), and every other byte of KEYB belongs to another register. -/
theorem keyWriteSetsItsWordAndClearsKsv : Obligations.KeyWriteSetsItsWordAndClearsKsv := by
  intro s n v rest hr
  have hstep : step s = .next (writeKey n v (s.setRequests rest)) := step_of_registerWrite (r := .key n) hr
  have hown (p : Nat) (hp : p < 4) := keyWrite_get_own s.keyb n v hp
  refine ⟨_, hstep, rfl, hown 0 (by decide), hown 1 (by decide), hown 2 (by decide), hown 3 (by decide), ?otherBytes,
    rfl, rfl, rfl, rfl, rfl, rfl⟩
  case otherBytes => exact fun a ha hne => (keyWrite_get s.keyb n v a ha).trans (if_neg hne)

/-- Settles O35: the write of one word of the data buffer. -/
theorem dataWriteSetsItsWord : Obligations.DataWriteSetsItsWord := by
  intro s n v rest hr
  have hstep : step s = .next (writeDbuf n v (s.setRequests rest)) := step_of_registerWrite (r := .dbuf n) hr
  have hin : dbufAddr n + 3 < 128 := by unfold dbufAddr; omega
  refine ⟨_, hstep, ?frame, ?otherBytes, ?ownBytes⟩
  case frame => simp [OnlyDbMayDiffer, writeDbuf]
  case otherBytes => exact fun a ha => read_memWrite_other s.db v ha
  case ownBytes => exact fun hw => read_memWrite_bytes hw hin v

/-- Settles O36: STATUS is at 0x004, and its write is the equation of R204. -/
theorem statusWriteClearsTheError : Obligations.StatusWriteClearsTheError := fun _ _ _ hr =>
  step_of_registerWrite (r := .status) hr

/-- Settles O37: a write to RKi is the bus error of 20_memory.md R57, a read the register's. -/
theorem roundKeyWriteIsRefused : Obligations.RoundKeyWriteIsRefused := fun _ i _ _ =>
  ⟨fun hr => step_of_registerWrite (r := .rk i) hr, fun hr => step_of_registerRead (r := .rk i) hr⟩

/-! ## NOP (R200) -/

/-- NOP as an equation: it completes in every state and changes nothing. -/
theorem exec_nop (s : State) : exec .nop s = .next s := rfl

/-- NOP has one word (30_encoding.md R73). -/
theorem decode_eq_nop_iff (c : Word) : decode c = .ok .nop ↔ c = 0x00000000 := by
  rw [decodeSelectsExactlyTheTableRows.1]
  simp only [reduceCtorEq, and_false, and_true, or_false, and_all_eq_iff_eq]

/-- Settles O9: NOP's word is the one of OP 0 that is legal, and whether it is dropped or performed the state is the same. -/
theorem nopChangesNothing : Obligations.NopChangesNothing := by
  refine ⟨exec_nop, decode_eq_nop_iff, ?illegal, ?write⟩
  case illegal =>
    intro c hop hne
    have hop' : fieldOp c = 0 := congrArg BitVec.toNat hop
    exact decode_error_of_fieldOp (.inl rfl) hop' fun h => hne (BitVec.eq_of_toNat_eq h)
  case write =>
    intro s a rest hr hc
    have hruns := runsOnItsWords_of_mem_row (r := rowNop) (by simp [opcodeRows]) s a 0x00000000 rest hr hc rfl
    rw [hruns, rowNop, exec_nop, ite_self]

end Sys2Proof.Machine

/-!
# The exceptions family (60_exceptions.md): what records an error, what one leaves unchanged, and what clears it

An access is a bus fault, a CMD write, or neither, and R225 judges it in this order. The first two have one equation each for their step;
`hostStep_error_of_neither` says what the third kind can do to the error record.
-/

namespace Sys2Proof.Machine

open Sys2Proof.Safety

/-! ## Recording an error (R221, R223) -/

/-- Settles O41: with ERR = 1 `raiseError` is the identity, with ERR = 0 it is a write of the error record. -/
theorem raisingAnErrorKeepsTheFirst : Obligations.RaisingAnErrorKeepsTheFirst := by
  refine fun s c => ⟨raiseError_of_err c, fun he => ⟨raiseError_err c s, ?code⟩, raiseError_keyb c s, raiseError_rk c s,
    raiseError_db c s, raiseError_ksv c s, raiseError_requests c s, raiseError_responses c s⟩
  case code =>
    rw [raiseError_of_no_err c he]
    cases c <;> rfl

/-- The codes that are ever recorded (R221). -/
theorem code_eq_one_or_two_or_three (c : ErrorCause) : c.code = 1 ∨ c.code = 2 ∨ c.code = 3 := by
  cases c <;> decide

/-- While ERR = 1 a bus error answers a read with 0 and does nothing else (20_memory.md R57). -/
theorem busError_of_err {k : AccessKind} {s : State} (he : s.err = true) :
    busError k s = if k = .read then s.respond 0 else s := by
  cases k <;> simp [busError, raiseError_of_err .bus he]

/-- A STATUS write with bit 1 set clears the error (45_control_and_host_access.md R204). -/
theorem writeStatus_of_bit_set {v : Word} (s : State) (h : v.getLsbD 1 = true) : writeStatus v s = clearError s := if_pos h

/-- With bit 1 clear it does nothing. -/
theorem writeStatus_of_bit_clear {v : Word} (s : State) (h : v.getLsbD 1 = false) : writeStatus v s = s :=
  if_neg (ne_true_of_eq_false h)

/-! ## The three kinds of access (R225) -/

/-- A clearing write is an access that writes a value with bit 1 set to the register STATUS. -/
theorem clearingWrite_iff {a : Access} :
    ClearingWrite a ↔ a.kind = .write ∧ a.target = some .status ∧ a.data.getLsbD 1 = true := by
  rw [target_eq_some_iff]
  change _ ↔ a.kind = .write ∧ (a.size = 32 ∧ a.offset = 0x004) ∧ a.data.getLsbD 1 = true
  tauto

/-- With a bus fault first, a step is the bus error. -/
theorem step_of_busFault {s : State} {a : Access} {rest : List HostEvent} (hr : s.requests = .access a :: rest)
    (hb : BusFault a) : step s = .next (busError a.kind (s.setRequests rest)) := by
  rw [step_of_access hr, hostStep_of_busFault _ hb]

/-- With a register's read first, a step answers the register's value (45_control_and_host_access.md R201). -/
theorem step_of_read {s : State} {a : Access} {r : Reg} {rest : List HostEvent} (hr : s.requests = .access a :: rest)
    (ht : a.target = some r) (hk : a.kind = .read) : step s = .next ((s.setRequests rest).respond (readReg r s)) := by
  rw [step_of_access hr, hostStep_of_read _ hk ht, readReg_setRequests]

/-- With a register's write first, a step is that write (R202 to R206). -/
theorem step_of_write {s : State} {a : Access} {r : Reg} {rest : List HostEvent} (hr : s.requests = .access a :: rest)
    (ht : a.target = some r) (hk : a.kind = .write) : step s = writeReg r a.data (s.setRequests rest) := by
  rw [step_of_access hr, hostStep_of_write _ hk ht]

/-- ENC1 and DEC1 record NO_KEY without a key schedule, and with one leave the error record alone (R221). -/
theorem scalarCommand_next_error {b : Nat} {rk : Vector Word 32} {s t : State} (h : scalarCommand b rk s = .next t) :
    s.ksv = false ∧ t = raiseError .noKey s ∨ s.ksv = true ∧ t.err = s.err ∧ t.errcode = s.errcode := by
  obtain ⟨-, ⟨hk, rfl⟩ | hn⟩ := scalarCommand_next h
  · exact .inr ⟨hk, cryptBlock_err b rk s, cryptBlock_errcode b rk s⟩
  · exact .inl hn

/-- And so do ENC8 and DEC8. -/
theorem vectorCommand_next_error {rk : Vector Word 32} {s t : State} (h : vectorCommand rk s = .next t) :
    s.ksv = false ∧ t = raiseError .noKey s ∨ s.ksv = true ∧ t.err = s.err ∧ t.errcode = s.errcode := by
  obtain ⟨hk, rfl⟩ | hn := vectorCommand_next h
  · exact .inr ⟨hk, setDb_err s _, setDb_errcode s _⟩
  · exact .inl hn

/-- A command records NO_KEY if it needs a key schedule and has none, and otherwise leaves the error record alone (R221). -/
theorem exec_next_error {i : Instr} {s t : State} (h : exec i s = .next t) :
    (needsKey i = true ∧ s.ksv = false) ∧ t = raiseError .noKey s ∨
      (needsKey i = true → s.ksv = true) ∧ t.err = s.err ∧ t.errcode = s.errcode := by
  cases i with
  | enc1 b => simpa [needsKey] using scalarCommand_next_error (rk := rkEnc s) h
  | dec1 b => simpa [needsKey] using scalarCommand_next_error (rk := rkDec s) h
  | enc8 => simpa [needsKey] using vectorCommand_next_error (rk := rkEnc s) h
  | dec8 => simpa [needsKey] using vectorCommand_next_error (rk := rkDec s) h
  | nop | keyexp | sub8 w | tau8 w | tauk8 w =>
    refine .inr ⟨by simp [needsKey], ?_⟩
    obtain ⟨-, rfl⟩ | ⟨-, rfl⟩ | ⟨-, -, hi⟩ | ⟨-, -, m, rfl, -⟩ := exec_next_cases h
    · exact ⟨rfl, rfl⟩
    · exact ⟨rfl, rfl⟩
    · simp at hi
    · exact ⟨rfl, rfl⟩

/-- An access that is neither a bus fault nor a CMD write leaves the error record alone, unless it clears it. -/
theorem hostStep_error_of_neither {a : Access} {s t : State} (h : hostStep a s = .next t) (hb : ¬BusFault a)
    (hc : ∀ c, ¬CommandWrite a c) : t.err = s.err ∧ t.errcode = s.errcode ∨ ClearingWrite a ∧ t = clearError s := by
  obtain ⟨hf, -⟩ | ⟨r, -, -, rfl⟩ | ⟨ht, hw, -⟩ | ⟨ht, hw, rfl⟩ | ⟨n, -, -, rfl⟩ | ⟨n, -, -, rfl⟩ := hostStep_next h
  · exact absurd (busFault_iff.mpr hf) hb
  · exact .inl ⟨rfl, rfl⟩
  · exact absurd (commandWrite_iff.mpr ⟨hw, ht, rfl⟩) (hc a.data)
  · cases hbit : a.data.getLsbD 1 with
    | true => exact .inr ⟨clearingWrite_iff.mpr ⟨hw, ht, hbit⟩, writeStatus_of_bit_set s hbit⟩
    | false =>
      rw [writeStatus_of_bit_clear s hbit]
      exact .inl ⟨rfl, rfl⟩
  · exact .inl ⟨rfl, rfl⟩
  · exact .inl ⟨rfl, rfl⟩

/-! ## The priority (R225) -/

/-- While ERR = 1 a bus fault and a CMD write leave the block as it is (R224, R225). -/
theorem sameBlock_of_err {s t : State} {a : Access} {c : Word} {rest : List HostEvent} (hr : s.requests = .access a :: rest)
    (he : s.err = true) (ha : BusFault a ∨ CommandWrite a c) (h : step s = .next t) : SameBlock t s := by
  obtain hb | hc := ha
  · rw [step_of_busFault hr hb] at h
    obtain rfl := Host.Outcome.next.inj h
    simpa [he] using busError_sameBlock a.kind s rest
  · rw [step_of_commandWrite hr hc, writeCmd_of_err (s := s.setRequests rest) he] at h
    obtain rfl := Host.Outcome.next.inj h
    exact ⟨rfl, rfl, rfl, rfl, rfl, rfl⟩

/-- Settles O42: each clause runs the one rule that its kind of access leaves, in the order bus fault, dropped or illegal word, missing
key. -/
theorem recordedErrorFollowsThePriority : Obligations.RecordedErrorFollowsThePriority := by
  refine ⟨fun s t a c rest hr he ha h => sameBlock_of_err hr he ha h, fun s t a rest hr he hcode h => ?_⟩
  have he' : (s.setRequests rest).err = false := he
  have hperform {c : Word} {i : Instr} (hc : CommandWrite a c) (hd : decode c = .ok i) :
      exec i (s.setRequests rest) = .next t := by
    rw [← h, step_of_commandWrite hr hc, writeCmd_of_decode he' hd]
  refine ⟨fun hb => ?bus, fun c _ hc ⟨e, hd⟩ => ?illegal, fun c i _ hc hd hn hk => ?noKey, fun c i _ hc hd hn => ?performed,
    fun hb hc => ?other⟩
  case bus =>
    rw [step_of_busFault hr hb] at h
    obtain rfl := Host.Outcome.next.inj h
    obtain ⟨-, -, -, -, herr, herrcode, -, -⟩ := busError_frame a.kind (s.setRequests rest)
    exact ⟨herr, by simpa [he] using herrcode⟩
  case illegal =>
    rw [step_of_commandWrite hr hc, writeCmd_of_illegal he' hd, raiseError_of_no_err _ he'] at h
    obtain rfl := Host.Outcome.next.inj h
    exact ⟨rfl, rfl⟩
  case noKey =>
    obtain ⟨-, rfl⟩ | ⟨hn', -⟩ := exec_next_error (hperform hc hd)
    · rw [raiseError_of_no_err _ he']
      exact ⟨rfl, rfl⟩
    · exact absurd ((hn' hn).symm.trans hk) (by decide)
  case performed =>
    obtain ⟨⟨hn', hk⟩, -⟩ | ⟨-, herr, herrcode⟩ := exec_next_error (hperform hc hd)
    · exact absurd ((hn hn').symm.trans hk) (by decide)
    · exact ⟨herr.trans he, herrcode.trans hcode⟩
  case other =>
    rw [step_of_access hr] at h
    obtain ⟨herr, herrcode⟩ | ⟨-, rfl⟩ := hostStep_error_of_neither h hb hc
    · exact ⟨herr.trans he, herrcode.trans hcode⟩
    · exact ⟨rfl, rfl⟩

/-! ## Errors are precise (R222) -/

/-- A CMD write that raises an error is nothing but the recording of it. -/
theorem writeCmd_raises {c : Word} {s t : State} (h : writeCmd c s = .next t) (he : s.err = false) (ht : t.err = true) :
    ∃ x, t = raiseError x s := by
  obtain ⟨he', -⟩ | ⟨-, -, rfl⟩ | ⟨-, i, -, hx⟩ := writeCmd_next h
  · simp [he] at he'
  · exact ⟨_, rfl⟩
  · obtain ⟨-, rfl⟩ | ⟨-, herr, -⟩ := exec_next_error hx
    · exact ⟨_, rfl⟩
    · simp [herr, he] at ht

/-- A host access that raises an error is nothing but the recording of it, and for a read, which is a bus fault, the answer 0. -/
theorem hostStep_raises {a : Access} {s t : State} (h : hostStep a s = .next t) (he : s.err = false) (ht : t.err = true) :
    ∃ x, a.kind = .read ∧ BusFault a ∧ t = (raiseError x s).respond 0 ∨ a.kind = .write ∧ t = raiseError x s := by
  by_cases hb : BusFault a
  · rw [hostStep_of_busFault s hb] at h
    obtain rfl := Host.Outcome.next.inj h
    refine ⟨.bus, ?_⟩
    cases hk : a.kind with
    | read => exact .inl ⟨rfl, hb, rfl⟩
    | write => exact .inr ⟨rfl, rfl⟩
  · by_cases hc : ∃ c, CommandWrite a c
    · obtain ⟨c, hc⟩ := hc
      obtain ⟨hw, htarget, -⟩ := commandWrite_iff.mp hc
      rw [hostStep_of_write s hw htarget] at h
      obtain ⟨x, hx⟩ := writeCmd_raises h he ht
      exact ⟨x, .inr ⟨hw, hx⟩⟩
    · obtain ⟨herr, -⟩ | ⟨-, rfl⟩ := hostStep_error_of_neither h hb (not_exists.mp hc)
      · simp [herr, he] at ht
      · simp at ht

/-- Settles O43: only an access can raise an error, and then it is `raiseError`, whose frame is the statement. -/
theorem errorsArePrecise : Obligations.ErrorsArePrecise := by
  intro s t he h ht
  obtain ⟨-, rfl⟩ | ⟨rest, ⟨-, rfl⟩ | ⟨a, hr, ha⟩⟩ := serveNext_next h
  · simp [he] at ht
  · simp at ht
  · have he' : (s.setRequests rest).err = false := he
    obtain ⟨x, ⟨hk, hb, rfl⟩ | ⟨hk, rfl⟩⟩ := hostStep_raises ha he' ht
    · rw [raiseError_of_no_err x he']
      exact ⟨rfl, rfl, rfl, rfl, code_eq_one_or_two_or_three x, a, hr, fun _ => ⟨hb, rfl⟩, fun hw => by simp [hk] at hw⟩
    · rw [raiseError_of_no_err x he']
      exact ⟨rfl, rfl, rfl, rfl, code_eq_one_or_two_or_three x, a, hr, fun hw => by simp [hk] at hw, fun _ => rfl⟩

/-! ## While an error stands (R224) -/

/-- Settles O44: of the equations of a step, only those of a CMD write and of a bus error look at ERR. -/
theorem commandsAreDroppedWhileErrorStands : Obligations.CommandsAreDroppedWhileErrorStands := by
  intro s a rest he hr
  have he' : (s.setRequests rest).err = true := he
  refine ⟨fun c hc => ?command, fun hb hk => ?busWrite, fun hb hk => ?busRead, fun r ht hk => step_of_read hr ht hk,
    fun n ht hk => step_of_write hr ht hk, fun n ht hk => step_of_write hr ht hk, fun ht hk => step_of_write hr ht hk⟩
  case command => rw [step_of_commandWrite hr hc, writeCmd_of_err he']
  case busWrite => rw [step_of_busFault hr hb, busError_of_err he', hk, if_neg (by decide)]
  case busRead => rw [step_of_busFault hr hb, busError_of_err he', hk, if_pos rfl]

/-! ## Clearing an error (R226) -/

/-- A host access keeps a recorded error with its code, unless it is a clearing write. -/
theorem hostStep_keeps_error {a : Access} {s t : State} (h : hostStep a s = .next t) (he : s.err = true) :
    t.err = true ∧ t.errcode = s.errcode ∨ ClearingWrite a := by
  by_cases hb : BusFault a
  · rw [hostStep_of_busFault s hb] at h
    obtain rfl := Host.Outcome.next.inj h
    obtain ⟨-, -, -, -, herr, hcode, -, -⟩ := busError_frame a.kind s
    exact .inl ⟨herr, hcode.trans (if_pos he)⟩
  · by_cases hc : ∃ c, CommandWrite a c
    · obtain ⟨c, hc⟩ := hc
      obtain ⟨hw, htarget, -⟩ := commandWrite_iff.mp hc
      rw [hostStep_of_write s hw htarget, writeReg, writeCmd_of_err he] at h
      obtain rfl := Host.Outcome.next.inj h
      exact .inl ⟨he, rfl⟩
    · obtain ⟨herr, hcode⟩ | ⟨hclear, -⟩ := hostStep_error_of_neither h hb (not_exists.mp hc)
      · exact .inl ⟨herr.trans he, hcode⟩
      · exact .inr hclear

/-- A clearing write is a step to the state with the error record cleared. -/
theorem step_of_clearingWrite {s : State} {a : Access} {rest : List HostEvent} (hr : s.requests = .access a :: rest)
    (hc : ClearingWrite a) : step s = .next (clearError (s.setRequests rest)) := by
  obtain ⟨hw, ht, hbit⟩ := clearingWrite_iff.mp hc
  rw [step_of_write hr ht hw, writeReg, writeStatus_of_bit_set _ hbit]

/-- Settles O45: of the events of a step, a reset and a clearing write are the ones that do not keep a recorded error. -/
theorem onlyStatusWriteOrResetClearsAnError : Obligations.OnlyStatusWriteOrResetClearsAnError := by
  refine ⟨fun s t he h => ?keeps, fun s a rest => step_of_clearingWrite⟩
  case keeps =>
    obtain ⟨-, rfl⟩ | ⟨rest, ⟨hr, -⟩ | ⟨a, hr, ha⟩⟩ := serveNext_next h
    · exact .inl ⟨he, rfl⟩
    · exact .inr ⟨rest, .inl hr⟩
    · obtain hkeeps | hclear := hostStep_keeps_error ha he
      · exact .inl hkeeps
      · exact .inr ⟨rest, .inr ⟨a, hr, hclear⟩⟩

end Sys2Proof.Machine

/-!
# The reset family (70_reset_and_hazards.md): after a reset only a KEYEXP gives a key

A step takes the first request and adds none, so a run meets no request that was not there at its start. Where none of them is a
KEYEXP, KSV = 0 is an invariant of the run.
-/

namespace Sys2Proof.Machine

open Sys2Proof.Safety

/-! ## A step takes one request and adds none (45_control_and_host_access.md R207, log 1) -/

theorem exec_requests {i : Instr} {s t : State} (h : exec i s = .next t) : t.requests = s.requests := by
  obtain ⟨-, rfl⟩ | ⟨-, rfl⟩ | ⟨-, rfl, -⟩ | ⟨-, -, m, rfl, -⟩ := exec_next_cases h
  · rfl
  · rfl
  · exact raiseError_requests _ _
  · rfl

theorem writeCmd_requests {c : Word} {s t : State} (h : writeCmd c s = .next t) : t.requests = s.requests := by
  obtain ⟨-, rfl⟩ | ⟨-, -, rfl⟩ | ⟨-, i, -, hx⟩ := writeCmd_next h
  · rfl
  · exact raiseError_requests _ _
  · exact exec_requests hx

theorem writeStatus_requests (v : Word) (s : State) : (writeStatus v s).requests = s.requests := by
  unfold writeStatus
  split <;> rfl

theorem hostStep_requests {a : Access} {s t : State} (h : hostStep a s = .next t) : t.requests = s.requests := by
  obtain ⟨-, rfl⟩ | ⟨r, -, -, rfl⟩ | ⟨-, -, hc⟩ | ⟨-, -, rfl⟩ | ⟨n, -, -, rfl⟩ | ⟨n, -, -, rfl⟩ := hostStep_next h
  · obtain ⟨-, -, -, -, -, -, hreq, -⟩ := busError_frame a.kind s
    exact hreq
  · rfl
  · exact writeCmd_requests hc
  · exact writeStatus_requests a.data s
  · rfl
  · rfl

theorem step_requests {s t : State} (h : step s = .next t) : t.requests = s.requests.tail := by
  obtain ⟨hr, rfl⟩ | ⟨rest, ⟨hr, rfl⟩ | ⟨a, hr, ha⟩⟩ := serveNext_next h
  · rw [hr, List.tail_nil]
  · rw [hr, applyReset_requests, setRequests_requests, List.tail_cons]
  · rw [hr, hostStep_requests ha, setRequests_requests, List.tail_cons]

/-! ## No key without a KEYEXP (R252) -/

/-- What every step keeps holds at the end of every run. -/
theorem runsTo_keeps {P : State → Prop} (hstep : ∀ {s t : State}, P s → step s = .next t → P t) {k : Nat} {s t : State}
    (h : RunsTo k s t) (hs : P s) : P t := by
  induction k generalizing s with
  | zero =>
    obtain rfl : s = t := h
    exact hs
  | succ k ih =>
    obtain ⟨u, hu, hrun⟩ := h
    exact ih hrun (hstep hs hu)

/-- There is no key schedule, and no KEYEXP among the requests that could give one. -/
def KeylessForGood (s : State) : Prop :=
  s.ksv = false ∧ ∀ a, .access a ∈ s.requests → ¬CommandWrite a 0x00000001

theorem step_keeps_keylessForGood {s t : State} (hs : KeylessForGood s) (h : step s = .next t) : KeylessForGood t := by
  obtain ⟨hk, hno⟩ := hs
  refine ⟨?ksv, fun a ha => hno a (List.mem_of_mem_tail (step_requests h ▸ ha))⟩
  case ksv =>
    by_contra ht
    obtain ⟨rest, a, hr, hc, -⟩ := ksv_set_by_keyexp h hk (eq_true_of_ne_false ht)
    exact hno a (hr ▸ List.mem_cons_self) hc

/-- The four commands that need a key schedule record NO_KEY without one, and change nothing else (60_exceptions.md R221). -/
theorem blockCommands_without_key {s : State} (hk : s.ksv = false) (he : s.err = false) :
    (∀ b, b < 8 → exec (.enc1 b) s = .next (s.setError true 2) ∧ exec (.dec1 b) s = .next (s.setError true 2)) ∧
      exec .enc8 s = .next (s.setError true 2) ∧ exec .dec8 s = .next (s.setError true 2) := by
  refine ⟨fun b hb => ?scalar, exec_without_key rfl rfl hk he, exec_without_key rfl rfl hk he⟩
  case scalar =>
    have hb' : wfBlock b = true := decide_eq_true hb
    exact ⟨exec_without_key rfl hb' hk he, exec_without_key rfl hb' hk he⟩

/-! ## The key schedule of the zero key (R252) -/

theorem masterKey_reset : masterKey State.reset.keyb = ⟨0, 0, 0, 0⟩ := by decide

theorem keySchedule_zero_first : (keySchedule ⟨0, 0, 0, 0⟩)[0] = 0x45603B23 := by decide

theorem keySchedule_zero_last : (keySchedule ⟨0, 0, 0, 0⟩)[31] = 0xA16CA108 := by decide

/-- Settles O51: `KeylessForGood` holds at reset and every step keeps it; KEYEXP at reset gives the key schedule of the zero key. -/
theorem afterResetOnlyKeyexpGivesAKey : Obligations.AfterResetOnlyKeyexpGivesAKey := by
  obtain ⟨hscalar, henc8, hdec8⟩ := blockCommands_without_key reset_ksv reset_err
  refine ⟨hscalar, henc8, hdec8, fun k es t hrun hno => ?run, _, exec_keyexp State.reset, ?first, ?last, rfl, rfl, rfl⟩
  case run =>
    obtain ⟨hk, -⟩ : KeylessForGood t := runsTo_keeps step_keeps_keylessForGood hrun ⟨reset_ksv, hno⟩
    exact ⟨hk, blockCommands_without_key hk⟩
  case first =>
    rw [masterKey_reset]
    exact keySchedule_zero_first
  case last =>
    rw [masterKey_reset]
    exact keySchedule_zero_last

end Sys2Proof.Machine

/-!
# The encoding family, continued (30_encoding.md): encode and decode are inverse, and a program's command line

A row of R73 fixes the bits of its mask and leaves the others to one operand. So the word of the command that a row builds from c is the
row's pattern with c's own bits outside the mask; where c selects the row, that is c.
-/

namespace Sys2Proof.Machine

open Sys2Proof.Safety

/-! ## From a word to its command and back (R71, R73) -/

/-- BSEL read and placed again: the bits that the rows of ENC1 and DEC1 leave free. -/
theorem placeBsel_fieldBsel (c : Word) : placeBsel (fieldBsel c) = c &&& ~~~0xFFFFFF1F := by
  rw [placeBsel, fieldBsel, BitVec.ofNat_toNat]
  ext i hi
  simp only [BitVec.getElem_shiftLeft, BitVec.getElem_and, BitVec.getElem_not]
  interval_cases i <;> simp

/-- WSEL read and placed again: the bits that the rows of SUB8, TAU8 and TAUK8 leave free. -/
theorem placeWsel_fieldWsel (c : Word) : placeWsel (fieldWsel c) = c &&& ~~~0xFFFFFCFF := by
  rw [placeWsel, fieldWsel, BitVec.ofNat_toNat]
  ext i hi
  simp only [BitVec.getElem_shiftLeft, BitVec.getElem_and, BitVec.getElem_not]
  interval_cases i <;> simp

/-- What holds of the nine rows holds of each row of the table. -/
theorem forall_mem_opcodeRows {P : Row → Prop} : (∀ r ∈ opcodeRows, P r) ↔
    P rowNop ∧ P rowKeyexp ∧ P rowEnc1 ∧ P rowDec1 ∧ P rowEnc8 ∧ P rowDec8 ∧ P rowSub8 ∧ P rowTau8 ∧ P rowTauk8 := by
  simp only [opcodeRows, List.forall_mem_cons, List.not_mem_nil, false_imp_iff, implies_true, and_true]

/-- The word of what a row builds from c: the row's pattern in the bits of its mask, and c in the others. -/
theorem encode_build (c : Word) : ∀ r ∈ opcodeRows, encode (r.build c) = r.pattern ||| (c &&& ~~~r.mask) := by
  have hplain (p : Word) : p = p ||| (c &&& ~~~0xFFFFFFFF) := by simp
  have hblock (p : Word) : p ||| placeBsel (fieldBsel c) = p ||| (c &&& ~~~0xFFFFFF1F) := by rw [placeBsel_fieldBsel]
  have hword (p : Word) : p ||| placeWsel (fieldWsel c) = p ||| (c &&& ~~~0xFFFFFCFF) := by rw [placeWsel_fieldWsel]
  exact forall_mem_opcodeRows.mpr
    ⟨hplain _, hplain _, hblock _, hblock _, hplain _, hplain _, hword _, hword _, hword _⟩

/-- A row builds well-formed commands only: its operand has the bits of its field (R72). -/
theorem build_wellFormed (c : Word) : ∀ r ∈ opcodeRows, (r.build c).wellFormed = true := by
  have hblock : wfBlock (fieldBsel c) = true := decide_eq_true (c.extractLsb' 5 3).isLt
  have hword : wfWord (fieldWsel c) = true := decide_eq_true (c.extractLsb' 8 2).isLt
  exact forall_mem_opcodeRows.mpr ⟨rfl, rfl, hblock, hblock, rfl, rfl, hword, hword, hword⟩

/-- No word decodes to an ill-formed command (R78). -/
theorem wellFormed_of_decode {c : Word} {i : Instr} (h : decode c = .ok i) : i.wellFormed = true := by
  obtain ⟨r, hr, -, rfl⟩ := decode_eq_ok_iff.mp h
  exact build_wellFormed c r hr

/-- The word of the command that c decodes to is c. -/
theorem encode_of_decode {c : Word} {i : Instr} (h : decode c = .ok i) : encode i = c := by
  obtain ⟨r, hr, hsel, rfl⟩ := decode_eq_ok_iff.mp h
  calc encode (r.build c)
      = (c &&& r.mask) ||| (c &&& ~~~r.mask) := by rw [encode_build c r hr, hsel]
    _ = c &&& (r.mask ||| ~~~r.mask) := BitVec.and_or_distrib_left.symm
    _ = c := by rw [BitVec.or_not_self, BitVec.and_allOnes]

/-! ## From a command to its word and back (R73, R78) -/

theorem rowOf_mem_opcodeRows (i : Instr) : rowOf i ∈ opcodeRows := by
  cases i <;> simp [rowOf, opcodeRows]

/-- The word of a well-formed command has the fixed bits of its row. -/
theorem encode_and_mask {i : Instr} (hw : i.wellFormed = true) : encode i &&& (rowOf i).mask = (rowOf i).pattern := by
  cases i with
  | nop => exact Laws.EncodeRow.nop hw
  | keyexp => exact Laws.EncodeRow.keyexp hw
  | enc1 b => exact Laws.EncodeRow.enc1 b hw
  | dec1 b => exact Laws.EncodeRow.dec1 b hw
  | enc8 => exact Laws.EncodeRow.enc8 hw
  | dec8 => exact Laws.EncodeRow.dec8 hw
  | sub8 w => exact Laws.EncodeRow.sub8 w hw
  | tau8 w => exact Laws.EncodeRow.tau8 w hw
  | tauk8 w => exact Laws.EncodeRow.tauk8 w hw

/-- The row of a well-formed command builds it from its word. -/
theorem build_encode {i : Instr} (hw : i.wellFormed = true) : (rowOf i).build (encode i) = i := by
  cases i with
  | nop | keyexp | enc8 | dec8 => rfl
  | enc1 b | dec1 b =>
    have hb : b < 8 := of_decide_eq_true hw
    interval_cases b <;> rfl
  | sub8 w | tau8 w | tauk8 w =>
    have hw' : w < 4 := of_decide_eq_true hw
    interval_cases w <;> rfl

/-- A well-formed command comes back from its word. -/
theorem decode_encode {i : Instr} (hw : i.wellFormed = true) : decode (encode i) = .ok i := by
  rw [decode_of_mem_row (rowOf_mem_opcodeRows i) (encode_and_mask hw), build_encode hw]

/-- Settles O3: the round trip from a command goes through the command's own row, the one from a word through the row it selects. -/
theorem decodeAndEncodeAgree : Obligations.DecodeAndEncodeAgree :=
  ⟨fun _ => decode_encode, fun _ _ h => ⟨wellFormed_of_decode h, encode_of_decode h⟩⟩

/-- Settles O58: a line of a command in range is a CMD write of the command's word. -/
theorem commandLineMakesItsWord : Obligations.CommandLineMakesItsWord := fun i =>
  ⟨fun hw => if_neg (by simp [hw]), fun hw => ⟨_, encode i, if_pos hw, ⟨rfl, rfl, rfl, rfl⟩, decode_encode hw⟩⟩

/-- Settles O1: nine words, one for each row of R73. -/
theorem decodeOfWrittenOutWords : Obligations.DecodeOfWrittenOutWords := by
  unfold Obligations.DecodeOfWrittenOutWords
  decide

end Sys2Proof.Machine

/-!
# Who writes what (10_state.md section 1): the writers of KEYB, RK, DB and KSV

These four fields have few writers: a reset, KEYEXP, the commands that transform DB, and the writes of KEYn and DBUFn. `step_writer` says
so once; what every step keeps of the four fields is then a case for each writer.
-/

namespace Sys2Proof.Machine

open Sys2Proof.Safety

/-! ## The writers -/

/-- The four fields that only the writers change, which are all of the block (10_state.md R20) but the error record, are equal. -/
def SameData (s t : State) : Prop := t.keyb = s.keyb ∧ t.rk = s.rk ∧ t.db = s.db ∧ t.ksv = s.ksv

/-- The events that write one of the four fields, with what they leave (10_state.md R20, R22, R27). -/
inductive Writes : HostEvent → State → State → Prop
  | reset (s : State) : Writes .reset s (applyReset s)
  | keyexp {a : Access} {s : State} (hc : CommandWrite a 0x00000001) (he : s.err = false) :
    Writes (.access a) s ((s.setRk (keySchedule (masterKey s.keyb))).setKsv true)
  | transform {a : Access} {s : State} {i : Instr} {m : Memory} (hc : CommandWrite a a.data) (he : s.err = false)
    (hd : decode a.data = .ok i) (hi : i ≠ .nop ∧ i ≠ .keyexp) (hm : s.db.wf = true → m.wf = true) :
    Writes (.access a) s (s.setDb m)
  | key {a : Access} {s : State} (n : Fin 4) (hk : a.kind = .write) (ht : a.target = some (.key n)) :
    Writes (.access a) s (writeKey n a.data s)
  | dbuf {a : Access} {s : State} (n : Fin 32) (hk : a.kind = .write) (ht : a.target = some (.dbuf n)) :
    Writes (.access a) s (writeDbuf n a.data s)

theorem sameData_raiseError (c : ErrorCause) (s : State) : SameData s (raiseError c s) :=
  ⟨raiseError_keyb c s, raiseError_rk c s, raiseError_db c s, raiseError_ksv c s⟩

theorem sameData_busError (k : AccessKind) (s : State) : SameData s (busError k s) := by
  obtain ⟨hkeyb, hrk, hdb, hksv, -⟩ := busError_frame k s
  exact ⟨hkeyb, hrk, hdb, hksv⟩

theorem sameData_writeStatus (v : Word) (s : State) : SameData s (writeStatus v s) := by
  unfold writeStatus
  split
  · exact ⟨rfl, rfl, rfl, rfl⟩
  · exact ⟨rfl, rfl, rfl, rfl⟩

/-- Of the words written to CMD with ERR = 0, KEYEXP's and those of the commands that transform DB are writers. -/
theorem commandWrite_writer {a : Access} {s t : State} (hc : CommandWrite a a.data) (h : writeCmd a.data s = .next t) :
    SameData s t ∨ Writes (.access a) s t := by
  obtain ⟨-, rfl⟩ | ⟨-, -, rfl⟩ | ⟨he, i, hd, hx⟩ := writeCmd_next h
  · exact .inl ⟨rfl, rfl, rfl, rfl⟩
  · exact .inl (sameData_raiseError _ s)
  · obtain ⟨-, rfl⟩ | ⟨rfl, rfl⟩ | ⟨-, rfl, -⟩ | ⟨hnop, hkeyexp, m, rfl, hm⟩ := exec_next_cases hx
    · exact .inl ⟨rfl, rfl, rfl, rfl⟩
    · exact .inr (.keyexp (decode_eq_keyexp_iff.mp hd ▸ hc) he)
    · exact .inl (sameData_raiseError _ s)
    · exact .inr (.transform hc he hd ⟨hnop, hkeyexp⟩ hm)

theorem hostStep_writer {a : Access} {s t : State} (h : hostStep a s = .next t) :
    SameData s t ∨ Writes (.access a) s t := by
  obtain ⟨-, rfl⟩ | ⟨r, -, -, rfl⟩ | ⟨ht, hk, hc⟩ | ⟨-, -, rfl⟩ | ⟨n, ht, hk, rfl⟩ | ⟨n, ht, hk, rfl⟩ := hostStep_next h
  · exact .inl (sameData_busError a.kind s)
  · exact .inl ⟨rfl, rfl, rfl, rfl⟩
  · exact commandWrite_writer (commandWrite_iff.mpr ⟨hk, ht, rfl⟩) hc
  · exact .inl (sameData_writeStatus a.data s)
  · exact .inr (.key n hk ht)
  · exact .inr (.dbuf n hk ht)

/-- A step leaves the four fields as they are, or serves one of the writers. -/
theorem step_writer {s t : State} (h : step s = .next t) :
    SameData s t ∨ ∃ e rest, s.requests = e :: rest ∧ Writes e (s.setRequests rest) t := by
  obtain ⟨-, rfl⟩ | ⟨rest, ⟨hr, rfl⟩ | ⟨a, hr, ha⟩⟩ := serveNext_next h
  · exact .inl ⟨rfl, rfl, rfl, rfl⟩
  · exact .inr ⟨_, rest, hr, .reset _⟩
  · obtain hsame | hw := hostStep_writer ha
    · exact .inl hsame
    · exact .inr ⟨_, rest, hr, hw⟩

/-! ## Invariants of the four fields (10_state.md R23, R25) -/

/-- What speaks of the four fields only, and is kept by every writer, is kept by every step. -/
theorem step_keeps_of_writers {P : State → Prop} (hcongr : ∀ {s t}, SameData s t → P s → P t)
    (hwriters : ∀ {e s t}, Writes e s t → P s → P t) {s t : State} (hs : P s) (h : step s = .next t) : P t := by
  obtain hsame | ⟨e, rest, -, hw⟩ := step_writer h
  · exact hcongr hsame hs
  · exact hwriters hw (hcongr (s := s) ⟨rfl, rfl, rfl, rfl⟩ hs)

theorem writes_keeps_canonicalDb {e : HostEvent} {s t : State} (h : Writes e s t) (hs : CanonicalDb s) : CanonicalDb t := by
  cases h with
  | reset => exact reset_db_wf
  | keyexp => exact hs
  | transform _ _ _ _ hm => exact hm hs
  | key => exact hs
  | dbuf n => exact wf_memWrite hs (by unfold dbufAddr; omega) _

/-- Settles O53: of the writers of DB, a reset leaves it empty and the others write in DB[0..127]. -/
theorem dataBufferStaysCanonical : Obligations.DataBufferStaysCanonical := fun _ _ =>
  step_keeps_of_writers (fun ⟨_, _, hdb, _⟩ hs => by rwa [CanonicalDb, hdb]) writes_keeps_canonicalDb

theorem keyScheduleCurrent_congr {s t : State} (h : SameData s t) (hs : KeyScheduleCurrent s) : KeyScheduleCurrent t := by
  obtain ⟨hkeyb, hrk, -, hksv⟩ := h
  rwa [KeyScheduleCurrent, hkeyb, hrk, hksv]

theorem writes_keeps_keyScheduleCurrent {e : HostEvent} {s t : State} (h : Writes e s t) (hs : KeyScheduleCurrent s) :
    KeyScheduleCurrent t := by
  cases h with
  | reset => exact fun hk => absurd hk Bool.false_ne_true
  | keyexp => exact fun _ => rfl
  | transform => exact hs
  | key => exact fun hk => absurd hk Bool.false_ne_true
  | dbuf => exact hs

/-- Settles O55: KEYEXP makes RK the schedule of KEYB, and what changes KEYB or RK otherwise clears KSV. -/
theorem keyScheduleStaysCurrent : Obligations.KeyScheduleStaysCurrent := fun _ _ =>
  step_keeps_of_writers keyScheduleCurrent_congr writes_keeps_keyScheduleCurrent

/-! ## The writers of each field (10_state.md R20, R22) -/

/-- Settles O47: of the writers, a reset and KEYEXP alone change RK. -/
theorem onlyKeyexpWritesRoundKeys : Obligations.OnlyKeyexpWritesRoundKeys := by
  intro s t h hne
  obtain ⟨-, hrk, -⟩ | ⟨e, rest, hr, hw⟩ := step_writer h
  · exact absurd hrk hne
  · cases hw with
    | reset => exact ⟨rest, .inl hr⟩
    | keyexp hc he => exact ⟨rest, .inr ⟨_, hr, hc, he⟩⟩
    | transform | key | dbuf => exact absurd rfl hne

/-- A step that changes KEYB serves a reset or a KEY write. -/
theorem keyb_written_by_reset_or_key_write {s t : State} (h : step s = .next t) (hne : t.keyb ≠ s.keyb) :
    ∃ rest, s.requests = .reset :: rest ∨ ∃ a, s.requests = .access a :: rest ∧ a.kind = .write ∧ a.size = 32 ∧
      ∃ n : Fin 4, a.offset = BitVec.ofNat 9 (0x010 + 4 * n.val) := by
  obtain ⟨hkeyb, -⟩ | ⟨e, rest, hr, hw⟩ := step_writer h
  · exact absurd hkeyb hne
  · cases hw with
    | reset => exact ⟨rest, .inl hr⟩
    | key n hk ht =>
      obtain ⟨hsize, ho⟩ := target_eq_some_iff.mp ht
      exact ⟨rest, .inr ⟨_, hr, hk, hsize, n, ho⟩⟩
    | keyexp | transform | dbuf => exact absurd rfl hne

/-- A step that changes DB serves a reset, a DBUF write or, with ERR = 0, a command that transforms DB. -/
theorem db_written_by_reset_dbuf_write_or_command {s t : State} (h : step s = .next t) (hne : t.db ≠ s.db) :
    ∃ rest, s.requests = .reset :: rest ∨ ∃ a, s.requests = .access a :: rest ∧ a.kind = .write ∧ a.size = 32 ∧
      ((∃ n : Fin 32, a.offset = BitVec.ofNat 9 (0x100 + 4 * n.val)) ∨
        a.offset = 0x000 ∧ s.err = false ∧ ∃ i, decode a.data = .ok i ∧ i ≠ .nop ∧ i ≠ .keyexp) := by
  obtain ⟨-, -, hdb, -⟩ | ⟨e, rest, hr, hw⟩ := step_writer h
  · exact absurd hdb hne
  · cases hw with
    | reset => exact ⟨rest, .inl hr⟩
    | dbuf n hk ht =>
      obtain ⟨hsize, ho⟩ := target_eq_some_iff.mp ht
      exact ⟨rest, .inr ⟨_, hr, hk, hsize, .inl ⟨n, ho⟩⟩⟩
    | transform hc he hd hi =>
      obtain ⟨hk, ho, hsize, -⟩ := hc
      exact ⟨rest, .inr ⟨_, hr, hk, hsize, .inr ⟨ho, he, _, hd, hi⟩⟩⟩
    | keyexp | key => exact absurd rfl hne

/-- Settles O49: the writers of KEYB and of DB. -/
theorem keyAndDataAreWrittenOnlyByTheirWriters : Obligations.KeyAndDataAreWrittenOnlyByTheirWriters :=
  ⟨fun _ _ => keyb_written_by_reset_or_key_write, fun _ _ => db_written_by_reset_dbuf_write_or_command⟩

/-! ## A run with a recorded error (60_exceptions.md R224, R226) -/

/-- Among the next k requests are no reset and no clearing write: nothing that clears an error. -/
def NoneClears (k : Nat) (s : State) : Prop :=
  ∀ e ∈ s.requests.take k, e ≠ .reset ∧ ∀ a, e = .access a → ¬ClearingWrite a

theorem NoneClears.mono {j k : Nat} {s : State} (hjk : j ≤ k) (h : NoneClears k s) : NoneClears j s := fun e he =>
  h e (List.take_subset_take_left _ hjk he)

/-- The first of them is served by the first step. -/
theorem NoneClears.head {k : Nat} {s : State} {e : HostEvent} {rest : List HostEvent} (h : NoneClears (k + 1) s)
    (hr : s.requests = e :: rest) : e ≠ .reset ∧ ∀ a, e = .access a → ¬ClearingWrite a :=
  h e (by simp [hr])

theorem NoneClears.of_step {k : Nat} {s t : State} (h : NoneClears (k + 1) s) (hst : step s = .next t) : NoneClears k t := by
  intro e he
  rw [step_requests hst] at he
  refine h e ?_
  cases hr : s.requests with
  | nil => simp [hr] at he
  | cons e' rest => exact List.mem_cons_of_mem _ (by simpa [hr] using he)

/-- What a recorded error keeps of a state s: the error with its code, and RK, with no key schedule becoming valid. -/
def StandsFrom (s t : State) : Prop := t.err = true ∧ t.errcode = s.errcode ∧ t.rk = s.rk ∧ (t.ksv = true → s.ksv = true)

/-- With a recorded error a step that does not clear it leaves RK alone and sets no KSV: the writers of RK are commands or a reset. -/
theorem step_standsFrom {k : Nat} {s t : State} (h : step s = .next t) (he : s.err = true) (hno : NoneClears (k + 1) s) :
    StandsFrom s t := by
  obtain ⟨herr, hcode⟩ : t.err = true ∧ t.errcode = s.errcode := by
    obtain hkeeps | ⟨rest, hr | ⟨a, hr, hclear⟩⟩ := onlyStatusWriteOrResetClearsAnError.1 s t he h
    · exact hkeeps
    · exact absurd rfl (hno.head hr).1
    · exact absurd hclear ((hno.head hr).2 a rfl)
  refine ⟨herr, hcode, ?_⟩
  obtain ⟨-, hrk, -, hksv⟩ | ⟨e, rest, hr, hw⟩ := step_writer h
  · exact ⟨hrk, fun hk => hksv ▸ hk⟩
  · cases hw with
    | reset => exact absurd rfl (hno.head hr).1
    | keyexp _ he' | transform _ he' => exact absurd (he.symm.trans he') (by decide)
    | key => exact ⟨rfl, fun hk => absurd hk Bool.false_ne_true⟩
    | dbuf => exact ⟨rfl, id⟩

theorem runsTo_standsFrom {k : Nat} {s t : State} (h : RunsTo k s t) (he : s.err = true) (hno : NoneClears k s) :
    StandsFrom s t := by
  induction k generalizing s with
  | zero =>
    obtain rfl : s = t := h
    exact ⟨he, rfl, rfl, id⟩
  | succ k ih =>
    obtain ⟨u, hu, hrun⟩ := h
    obtain ⟨herr, hcode, hrk, hksv⟩ := step_standsFrom hu he hno
    obtain ⟨herr', hcode', hrk', hksv'⟩ := ih hrun herr (hno.of_step hu)
    exact ⟨herr', hcode'.trans hcode, hrk'.trans hrk, hksv ∘ hksv'⟩

/-- Settles O46: the error stands at every state of the run, and there a CMD write is dropped. -/
theorem errorStandsUntilItIsCleared : Obligations.ErrorStandsUntilItIsCleared := by
  intro k s t hrun he hno
  obtain ⟨herr, hcode, hrk, hksv⟩ := runsTo_standsFrom hrun he hno
  refine ⟨herr, hcode, hrk, hksv, fun j u a c rest hj hrun' hr hc => ?_⟩
  obtain ⟨herr', -⟩ := runsTo_standsFrom hrun' he (NoneClears.mono hj.le hno)
  rw [step_of_commandWrite hr hc, writeCmd_of_err (s := u.setRequests rest) herr']

end Sys2Proof.Machine

/-!
# No step stops (60_exceptions.md R221; log 4), and several blocks on one bus (R235)

A command stops only on an operand out of range, and no word decodes to one.
-/

namespace Sys2Proof.Machine

open Sys2Proof.Safety

/-! ## Every step has a next state -/

theorem scalarCommand_completes {b : Nat} (hb : b < 8) (rk : Vector Word 32) (s : State) :
    ∃ t, scalarCommand b rk s = .next t := by
  unfold scalarCommand
  rw [if_pos hb]
  split
  · exact ⟨_, rfl⟩
  · exact ⟨_, rfl⟩

theorem vectorCommand_completes (rk : Vector Word 32) (s : State) : ∃ t, vectorCommand rk s = .next t := by
  unfold vectorCommand
  split
  · exact ⟨_, rfl⟩
  · exact ⟨_, rfl⟩

theorem laneWordCommand_completes (f : LaneReg → LaneReg) {w : Nat} (hw : w < 4) (s : State) :
    ∃ t, laneWordCommand f w s = .next t := ⟨_, if_pos hw⟩

/-- A well-formed command completes in every state. -/
theorem exec_completes {i : Instr} (hw : i.wellFormed = true) (s : State) : ∃ t, exec i s = .next t := by
  cases i with
  | nop => exact ⟨s, exec_nop s⟩
  | keyexp => exact ⟨_, exec_keyexp s⟩
  | enc1 b => exact scalarCommand_completes (of_decide_eq_true hw) (rkEnc s) s
  | dec1 b => exact scalarCommand_completes (of_decide_eq_true hw) (rkDec s) s
  | enc8 => exact vectorCommand_completes (rkEnc s) s
  | dec8 => exact vectorCommand_completes (rkDec s) s
  | sub8 w => exact laneWordCommand_completes gather8 (of_decide_eq_true hw) s
  | tau8 w => exact laneWordCommand_completes (fun v => diffusionL8 (gather8 v)) (of_decide_eq_true hw) s
  | tauk8 w => exact laneWordCommand_completes (fun v => diffusionL'8 (gather8 v)) (of_decide_eq_true hw) s

theorem writeCmd_completes (c : Word) (s : State) : ∃ t, writeCmd c s = .next t := by
  cases he : s.err with
  | true => exact ⟨s, writeCmd_of_err he⟩
  | false =>
    cases hd : decode c with
    | error r => exact ⟨_, writeCmd_of_illegal he hd⟩
    | ok i =>
      rw [writeCmd_of_decode he hd]
      exact exec_completes (wellFormed_of_decode hd) s

theorem writeReg_completes (r : Reg) (v : Word) (s : State) : ∃ t, writeReg r v s = .next t := by
  cases r with
  | cmd => exact writeCmd_completes v s
  | status | key n | rk i | dbuf n => exact ⟨_, rfl⟩

theorem hostStep_completes (a : Access) (s : State) : ∃ t, hostStep a s = .next t := by
  cases ht : a.target with
  | none => exact ⟨_, hostStep_of_busFault s (busFault_iff.mpr (.inl ht))⟩
  | some r =>
    cases hk : a.kind with
    | read => exact ⟨_, hostStep_of_read s hk ht⟩
    | write =>
      rw [hostStep_of_write s hk ht]
      exact writeReg_completes r a.data s

/-- With no request a step changes nothing (log 1). -/
theorem step_of_no_request {s : State} (h : s.requests = []) : step s = .next s := by
  simp only [step, serveNext, h]

theorem step_completes (s : State) : ∃ t, step s = .next t := by
  cases hr : s.requests with
  | nil => exact ⟨s, step_of_no_request hr⟩
  | cons e rest =>
    cases e with
    | reset => exact ⟨_, step_of_reset hr⟩
    | access a =>
      rw [step_of_access hr]
      exact hostStep_completes a _

/-- Settles O8: a step serves nothing, a reset, or an access, and a host access completes. -/
theorem everyStepHasANextState : Obligations.EveryStepHasANextState := ⟨step_completes, fun _ => step_of_no_request⟩

/-! ## Where the meanings stop (30_encoding.md R78, log 4) -/

theorem scalarCommand_stops {b : Nat} (hb : 8 ≤ b) (rk : Vector Word 32) (s : State) :
    scalarCommand b rk s = .fault .noSuchBlock := if_neg (Nat.not_lt.mpr hb)

theorem laneWordCommand_stops (f : LaneReg → LaneReg) {w : Nat} (hw : 4 ≤ w) (s : State) :
    laneWordCommand f w s = .fault .noSuchLaneWord := if_neg (Nat.not_lt.mpr hw)

/-- Settles O7: the shared forms stop on an operand out of range, and a decoded command is well formed, so it completes. -/
theorem illFormedOperandsStopByName : Obligations.IllFormedOperandsStopByName := by
  refine fun s => ⟨fun b hb => ⟨scalarCommand_stops hb (rkEnc s) s, scalarCommand_stops hb (rkDec s) s⟩, fun w hw =>
    ⟨laneWordCommand_stops gather8 hw s, laneWordCommand_stops (fun v => diffusionL8 (gather8 v)) hw s,
      laneWordCommand_stops (fun v => diffusionL'8 (gather8 v)) hw s⟩, fun c i hd r hfault => ?_⟩
  obtain ⟨t, ht⟩ := exec_completes (wellFormed_of_decode hd) s
  cases ht.symm.trans hfault

/-! ## Several blocks on one bus (60_exceptions.md R235) -/

/-- A step of block k of the list that has a next state puts this state in its place. -/
theorem stepInstance_of_step {sys : List State} {k : Nat} {s t : State} (hk : sys[k]? = some s) (h : step s = .next t) :
    stepInstance k sys = some (.next (sys.set k t)) := by
  simp only [stepInstance, hk, h]

/-- Settles O57: the list with one entry replaced. -/
theorem instancesAreIndependent : Obligations.InstancesAreIndependent := by
  intro sys k s hk
  obtain ⟨t, ht⟩ := step_completes s
  obtain ⟨hlt, -⟩ := List.getElem?_eq_some_iff.mp hk
  exact ⟨_, t, ht, stepInstance_of_step hk ht, List.length_set, List.getElem?_set_self hlt,
    fun j hj => List.getElem?_set_ne hj.symm⟩

/-! ## The CMD write (30_encoding.md R75) -/

/-- A word placed by `withFetchWord` is a CMD write of it: with no error it is performed before the events still to come. -/
theorem step_withFetchWord {s : State} {c : Word} {i : Instr} (he : s.err = false) (hd : decode c = .ok i) :
    step (s.withFetchWord 32 c.toNat) = exec i s := by
  have hword : tableWord 32 c.toNat = c := by rw [tableWord, Nat.mod_eq_of_lt c.isLt, BitVec.ofNat_toNat, BitVec.setWidth_eq]
  have hc : CommandWrite (cmdAccess (tableWord 32 c.toNat)) c := ⟨rfl, rfl, rfl, hword⟩
  have hs : (s.withFetchWord 32 c.toNat).setRequests s.requests = s := rfl
  rw [step_of_commandWrite (rest := s.requests) rfl hc, hs, writeCmd_of_decode he hd]

/-- Settles O5: both clauses are a CMD write of a legal word. -/
theorem stepRunsTheDecodedCommand : Obligations.StepRunsTheDecodedCommand := by
  refine ⟨fun s a c i rest hr hc he hd => ?_, fun _ _ _ => step_withFetchWord⟩
  rw [step_of_commandWrite hr hc, writeCmd_of_decode (s := s.setRequests rest) he hd]

end Sys2Proof.Machine

/-!
# Blocks and directions (00_scope.md R4; 43_scalar_engine.md R161; 44_vector_engine.md R186)

Encryption undoes decryption, as decryption undoes encryption: reversed twice, the round keys are in order again. And what a command leaves
in a block is a function of that block, RK and KSV.
-/

namespace Sys2Proof.Machine

open Sys2Proof.Safety

/-! ## Encryption undoes decryption (R161) -/

/-- rk_dec is RK reversed (10_state.md R24). -/
theorem rkDec_eq_reverse (s : State) : rkDec s = s.rk.reverse := ofFn_eq_reverse s.rk

theorem blockF_rkDec_rkEnc (s : State) (x : Block) : blockF (blockF x (rkDec s)) (rkEnc s) = x := by
  have h := blockF_reverse_blockF x s.rk.reverse
  rwa [Vector.reverse_reverse, ← rkDec_eq_reverse] at h

theorem rkEnc_cryptBlock (b : Nat) (rk : Vector Word 32) (s : State) : rkEnc (cryptBlock b rk s) = rkEnc s :=
  rkEnc_setDb s _

/-- ENC1 b right after DEC1 b restores the state. -/
theorem performAll_dec1_enc1 {s : State} {b : Nat} (hb : b < 8) (hw : CanonicalDb s) (hk : s.ksv = true) :
    performAll [.dec1 b, .enc1 b] s = .next s := by
  have hdec := exec_dec1_of_ksv hb hk
  have henc : exec (.enc1 b) (cryptBlock b (rkDec s) s) = .next s := by
    rw [exec_enc1_of_ksv hb (by rwa [cryptBlock_ksv]), rkEnc_cryptBlock,
      cryptBlock_cryptBlock_of_inverse hw hb (blockF_rkDec_rkEnc s)]
  simp only [performAll, hdec, henc]

/-- ENC8 right after DEC8 restores the state. -/
theorem performAll_dec8_enc8 {s : State} (hw : CanonicalDb s) (hk : s.ksv = true) :
    performAll [.dec8, .enc8] s = .next s := by
  have hdec : exec .dec8 s = .next (s.setDb (cryptDb8 (rkDec s) s.db)) := exec_dec8_of_ksv hk
  have henc : exec .enc8 (s.setDb (cryptDb8 (rkDec s) s.db)) = .next s := by
    refine (vectorCommand_of_ksv (by rwa [setDb_ksv]) _).trans ?_
    rw [rkEnc_setDb, setDb_setDb, setDb_db, cryptDb8_cryptDb8_of_inverse hw (blockF_rkDec_rkEnc s), setDb_self]
  simp only [performAll, hdec, henc]

/-- Settles O26: F under RK in order undoes F under RK reversed, in the one block and in all eight. -/
theorem encryptCommandUndoesDecryptCommand : Obligations.EncryptCommandUndoesDecryptCommand := fun _ hw hk =>
  ⟨fun _ hb => performAll_dec1_enc1 hb hw hk, performAll_dec8_enc8 hw hk⟩

/-! ## What a command leaves in a block (R4) -/

/-- A block with its word at position w replaced by g of it (44_vector_engine.md R187). -/
def mapWord (w : Nat) (g : Word → Word) (x : Block) : Block :=
  ⟨if w = 0 then g x.x0 else x.x0, if w = 1 then g x.x1 else x.x1, if w = 2 then g x.x2 else x.x2,
    if w = 3 then g x.x3 else x.x3⟩

/-- Block j after a command, from KSV, RK and block j before it (`loadBlock_of_exec`). -/
def blockAfter (ksv : Bool) (rk : Vector Word 32) (j : Nat) (x : Block) : Instr → Block
  | .nop => x
  | .keyexp => x
  | .enc1 b => if ksv ∧ b = j then blockF x rk else x
  | .dec1 b => if ksv ∧ b = j then blockF x rk.reverse else x
  | .enc8 => if ksv then blockF x rk else x
  | .dec8 => if ksv then blockF x rk.reverse else x
  | .sub8 w => mapWord w substituteWord x
  | .tau8 w => mapWord w transformT x
  | .tauk8 w => mapWord w transformT' x

theorem loadBlock_of_scalarCommand {b j : Nat} {rk : Vector Word 32} {s t : State} (h : scalarCommand b rk s = .next t)
    (hw : CanonicalDb s) :
    loadBlock t.db j = if s.ksv ∧ b = j then blockF (loadBlock s.db j) rk else loadBlock s.db j := by
  obtain ⟨hb, ⟨hk, rfl⟩ | ⟨hk, rfl⟩⟩ := scalarCommand_next h
  · by_cases hbj : b = j
    · subst hbj
      rw [loadBlock_cryptBlock hw hb, if_pos ⟨hk, rfl⟩]
    · rw [cryptBlock_db, loadBlock_storeBlock_other _ _ hbj, if_neg fun hc => hbj hc.2]
  · rw [raiseError_db, if_neg (by simp [hk])]

theorem loadBlock_of_vectorCommand {j : Nat} {rk : Vector Word 32} {s t : State} (h : vectorCommand rk s = .next t)
    (hw : CanonicalDb s) (hj : j < 8) :
    loadBlock t.db j = if s.ksv then blockF (loadBlock s.db j) rk else loadBlock s.db j := by
  obtain ⟨hk, rfl⟩ | ⟨hk, rfl⟩ := vectorCommand_next h
  · rw [if_pos hk, setDb_db, ← cryptDb8, loadBlock_cryptDb8 hw rk hj]
  · rw [raiseError_db, if_neg (by simp [hk])]

/-- A word of block j after writing lane-word w. -/
theorem memRead_storeLanes {m : Memory} (hm : m.wf = true) {w i j : Nat} (hw : w < 4) (hi : i < 4) (hj : j < 8)
    (v : LaneReg) :
    memRead (storeLanes m w v) (wordAddr j i) = if w = i then lane v j else memRead m (wordAddr j i) := by
  split
  · next h => exact h ▸ memRead_storeLanes_same hm hw hj v
  · next h => exact memRead_storeLanes_other m hw hi h v

theorem loadBlock_of_laneWordCommand {f : LaneReg → LaneReg} {g : Word → Word}
    (hf : ∀ v j, j < 8 → lane (f v) j = g (lane v j)) {w j : Nat} {s t : State} (h : laneWordCommand f w s = .next t)
    (hm : CanonicalDb s) (hj : j < 8) : loadBlock t.db j = mapWord w g (loadBlock s.db j) := by
  obtain ⟨hw, rfl⟩ := laneWordCommand_next h
  have hlane : lane (f (loadLanes s.db w)) j = g (memRead s.db (wordAddr j w)) := by
    rw [hf _ j hj, loadLanes, lane_ofLanes _ hj]
  have hword (i : Nat) (hi : i < 4) : memRead (storeLanes s.db w (f (loadLanes s.db w))) (wordAddr j i) =
      if w = i then g (memRead s.db (wordAddr j i)) else memRead s.db (wordAddr j i) := by
    rw [memRead_storeLanes hm hw hi hj, hlane]
    split
    · next h => rw [h]
    · rfl
  rw [setDb_db, loadBlock, hword 0 (by decide), hword 1 (by decide), hword 2 (by decide), hword 3 (by decide)]
  rfl

/-- A command's effect on a block, as a function of KSV, RK and that block. -/
theorem loadBlock_of_exec {i : Instr} {s t : State} {j : Nat} (h : exec i s = .next t) (hw : CanonicalDb s) (hj : j < 8) :
    loadBlock t.db j = blockAfter s.ksv s.rk j (loadBlock s.db j) i := by
  cases i with
  | nop =>
    obtain rfl : s = t := Host.Outcome.next.inj h
    rfl
  | keyexp =>
    obtain rfl := Host.Outcome.next.inj h
    rfl
  | enc1 b => exact loadBlock_of_scalarCommand (rk := rkEnc s) h hw
  | dec1 b =>
    rw [blockAfter, ← rkDec_eq_reverse]
    exact loadBlock_of_scalarCommand h hw
  | enc8 => exact loadBlock_of_vectorCommand (rk := rkEnc s) h hw hj
  | dec8 =>
    rw [blockAfter, ← rkDec_eq_reverse]
    exact loadBlock_of_vectorCommand h hw hj
  | sub8 w => exact loadBlock_of_laneWordCommand (f := gather8) (fun v _ hk => lane_gather8 v hk) h hw hj
  | tau8 w =>
    exact loadBlock_of_laneWordCommand (f := fun v => diffusionL8 (gather8 v)) (fun v _ hk => lane_diffusionL8_gather8 v hk)
      h hw hj
  | tauk8 w =>
    exact loadBlock_of_laneWordCommand (f := fun v => diffusionL'8 (gather8 v))
      (fun v _ hk => lane_diffusionL'8_gather8 v hk) h hw hj

/-- Settles O27: `blockAfter` has no other block among its arguments. -/
theorem blocksAreTransformedIndependently : Obligations.BlocksAreTransformedIndependently := by
  intro s s' t t' j i hj hw hw' hksv hrk hblock h h'
  rw [loadBlock_of_exec h hw hj, loadBlock_of_exec h' hw' hj, hksv, hrk, hblock]

end Sys2Proof.Machine

/-!
# The memory family, continued (20_memory.md): the register map, reads after writes, the window's base, and STATUS as it reads
-/

namespace Sys2Proof.Machine

open Sys2Proof.Safety

/-! ## The register map (R52) -/

/-- An offset reaches the register that stands at it, and no other. -/
theorem regAt_eq_some_iff {o : BitVec 9} {r : Reg} : regAt o = some r ↔ o = r.offset :=
  ⟨fun h => (offset_of_regAt h).symm, fun h => by rw [h, regAt_offset]⟩

/-- An offset as a number. -/
theorem offset_eq_ofNat_iff {o : BitVec 9} {a : Nat} (ha : a < 512) : o = BitVec.ofNat 9 a ↔ o.toNat = a := by
  rw [← BitVec.toNat_inj, BitVec.toNat_ofNat, Nat.mod_eq_of_lt ha]

/-- Settles O31: the map of R52 is `Reg.offset`, here as numbers. -/
theorem registerMapIsAsListed : Obligations.RegisterMapIsAsListed := by
  refine ⟨fun o r => regAt_eq_some_iff.trans ?_, regAt_offset, fun o => regAt_eq_none_iff⟩
  cases r with
  | cmd | status => exact Iff.rfl
  | key n | rk i | dbuf n => exact offset_eq_ofNat_iff (by omega)

/-! ## Reads after writes (R55, R61) -/

/-- What the registers read as after a KEY write: its own value in KEYn, and the rest as before but for STATUS, whose KSV is cleared. -/
theorem readReg_writeKey (n : Fin 4) (v : Word) (s : State) :
    readReg (.key n) (writeKey n v s) = v ∧
      ∀ r, r ≠ .key n → r ≠ .status → readReg r (writeKey n v s) = readReg r s := by
  refine ⟨keyRead_keyWrite_same s.keyb n v, fun r hr hst => ?_⟩
  cases r with
  | status => exact absurd rfl hst
  | key m => exact keyRead_keyWrite_other s.keyb v fun h => hr (h ▸ rfl)
  | cmd | rk i | dbuf m => rfl

/-- What the registers read as after a DBUF write: its own value in DBUFn, and the rest as before. -/
theorem readReg_writeDbuf (n : Fin 32) (v : Word) {s : State} (hw : CanonicalDb s) :
    readReg (.dbuf n) (writeDbuf n v s) = v ∧ ∀ r, r ≠ .dbuf n → readReg r (writeDbuf n v s) = readReg r s := by
  refine ⟨memRead_memWrite_same hw (by unfold dbufAddr; omega) v, fun r hr => ?_⟩
  cases r with
  | dbuf m =>
    have hne : m.val ≠ n.val := fun h => hr (congrArg Reg.dbuf (Fin.ext h))
    exact memRead_memWrite_other s.db v (by unfold dbufAddr; omega)
  | cmd | status | key m | rk i => rfl

/-- Settles O39: the step is the register's write. -/
theorem readAfterWriteReturnsTheValue : Obligations.ReadAfterWriteReturnsTheValue := by
  intro s t r v rest hw hr hreq h
  rw [step_of_registerWrite hreq] at h
  obtain ⟨n, rfl⟩ | ⟨n, rfl⟩ := hr
  · obtain rfl := Host.Outcome.next.inj h
    obtain ⟨hown, hother⟩ := readReg_writeKey n v (s.setRequests rest)
    exact ⟨hown, fun r' hne hst => (hother r' hne hst).trans (readReg_setRequests r' s rest)⟩
  · obtain rfl := Host.Outcome.next.inj h
    obtain ⟨hown, hother⟩ := readReg_writeDbuf n v (s := s.setRequests rest) hw
    exact ⟨hown, fun r' hne _ => (hother r' hne).trans (readReg_setRequests r' s rest)⟩

/-! ## The window's base (R51) -/

theorem windowOffset_base_add (o : BitVec 9) : windowOffset (Config.sm4reBase + o.toNat) = some o := by
  have hin : Config.sm4reBase ≤ Config.sm4reBase + o.toNat ∧ Config.sm4reBase + o.toNat < Config.sm4reBase + Config.windowBytes :=
    ⟨Nat.le_add_right _ _, Nat.add_lt_add_left o.isLt _⟩
  rw [windowOffset, if_pos hin, Nat.add_sub_cancel_left, BitVec.ofNat_toNat, BitVec.setWidth_eq]

theorem eq_base_add_of_windowOffset {addr : Nat} {o : BitVec 9} (h : windowOffset addr = some o) :
    addr = Config.sm4reBase + o.toNat := by
  unfold windowOffset at h
  split_ifs at h with hin
  obtain rfl := Option.some.inj h
  have hlt : addr - Config.sm4reBase < 2 ^ 9 := Nat.sub_lt_left_of_lt_add hin.1 hin.2
  rw [BitVec.toNat_ofNat, Nat.mod_eq_of_lt hlt, Nat.add_sub_cancel' hin.1]

/-- Settles O40: for any base. -/
theorem windowIsRelativeToItsBase : Obligations.WindowIsRelativeToItsBase :=
  ⟨windowOffset_base_add, fun _ _ => eq_base_add_of_windowOffset⟩

/-! ## STATUS as it reads (10_state.md R25) -/

/-- A bit of STATUS: ERRCODE from bit 4 on, ERR in bit 1, KSV in bit 0, and nothing elsewhere. -/
theorem getLsbD_statusWord (s : State) {i : Nat} (hi : i < 32) : (statusWord s).getLsbD i =
    ((decide (4 ≤ i) && s.errcode.getLsbD (i - 4)) || (decide (i = 1) && s.err) || (decide (i = 0) && s.ksv)) := by
  have hcode : (!decide (i < 4)) = decide (4 ≤ i) := by rw [← decide_not, decide_eq_decide, Nat.not_lt]
  have herr : (!decide (i = 0) && decide (i - 1 = 0)) = decide (i = 1) := by
    rw [Bool.eq_iff_iff]
    simp only [Bool.and_eq_true, Bool.not_eq_true', decide_eq_false_iff_not, decide_eq_true_eq]
    omega
  simp [statusWord, bitWord, hi, hcode, herr, ← Bool.and_assoc]

/-- Settles O32: each field is read bit by bit. -/
theorem statusReadsItsFields : Obligations.StatusReadsItsFields := by
  intro s
  refine ⟨?ksv, ?err, ?reserved, ?errcode, ?reservedHigh⟩
  case ksv => exact (getLsbD_statusWord s (by decide)).trans (by simp)
  case err => exact (getLsbD_statusWord s (by decide)).trans (by simp)
  case reserved =>
    ext i hi
    rw [BitVec.getElem_extractLsb', getLsbD_statusWord s (by omega)]
    simp [show ¬4 ≤ 2 + i by omega, show 2 + i ≠ 1 by omega]
  case errcode =>
    ext i hi
    rw [BitVec.getElem_extractLsb', getLsbD_statusWord s (by omega)]
    simp [show 4 + i ≠ 1 by omega, BitVec.getLsbD_eq_getElem hi]
  case reservedHigh =>
    ext i hi
    rw [BitVec.getElem_extractLsb', getLsbD_statusWord s (by omega)]
    simp [show 8 + i ≠ 1 by omega, BitVec.getLsbD_of_ge s.errcode (8 + i - 4) (by omega)]

end Sys2Proof.Machine

/-!
# The reset family, continued (70_reset_and_hazards.md): the reset state, and the order of use

The program of R253 is one list of accesses after another, so what the machine does to it is put together from what it does to each
list, whatever the host sends after it (`ServesTo`).
-/

namespace Sys2Proof.Machine

open Sys2Proof.Safety

/-! ## Reset (R250; 10_state.md R43) -/

/-- Settles O50: the reset state with the host's two lists kept. -/
theorem resetClearsEverything : Obligations.ResetClearsEverything := fun s rest hr =>
  ⟨applyReset (s.setRequests rest), step_of_reset hr, fun _ ha => Vector.getElem_replicate ha,
    fun _ hi => Vector.getElem_replicate hi, read_nil, rfl, rfl, rfl, ⟨rfl, rfl, rfl, rfl, rfl, rfl⟩, rfl, rfl⟩

/-- Settles O52: DB lists nothing, and ERR, ERRCODE and KSV are 0. -/
theorem resetStateIsLegal : Obligations.ResetStateIsLegal :=
  ⟨reset_db_wf, ⟨iff_of_true reset_err reset_errcode, .inl reset_errcode⟩, fun hk => absurd hk Bool.false_ne_true⟩

/-! ## Lists of accesses -/

theorem runsTo_append {j k : Nat} {s t u : State} (h : RunsTo j s t) (h' : RunsTo k t u) : RunsTo (j + k) s u := by
  induction j generalizing s with
  | zero =>
    obtain rfl : s = t := h
    rwa [Nat.zero_add]
  | succ j ih =>
    obtain ⟨v, hv, hrun⟩ := h
    rw [Nat.succ_add]
    exact ⟨v, hv, ih hrun⟩

/-- Serving the accesses `as` takes s to t, whatever requests stand after them. -/
structure ServesTo (as : List Access) (s t : State) : Prop where
  runsTo : ∀ rest, RunsTo as.length (s.setRequests (as.map .access ++ rest)) (t.setRequests rest)

theorem ServesTo.append {as bs : List Access} {s t u : State} (h : ServesTo as s t) (h' : ServesTo bs t u) :
    ServesTo (as ++ bs) s u := by
  refine ⟨fun rest => ?_⟩
  rw [List.length_append, List.map_append, List.append_assoc]
  exact runsTo_append (h.runsTo _) (h'.runsTo rest)

theorem ServesTo.cons {a : Access} {as : List Access} {s t u : State} (h : ServesTo [a] s t) (h' : ServesTo as t u) :
    ServesTo (a :: as) s u := h.append h'

theorem servesTo_write {r : Reg} {v : Word} {s t : State}
    (h : ∀ rest, writeReg r v (s.setRequests rest) = .next (t.setRequests rest)) : ServesTo [writeAccess r v] s t :=
  ⟨fun rest => ⟨t.setRequests rest, (step_of_registerWrite (r := r) rfl).trans (h rest), rfl⟩⟩

theorem servesTo_read (r : Reg) (s : State) : ServesTo [readAccess r] s (s.respond (readReg r s)) :=
  ⟨fun _ => ⟨_, step_of_registerRead (r := r) rfl, by rw [readReg_setRequests]; rfl⟩⟩

/-- With no error a well-formed command's access is the command. -/
theorem servesTo_command {i : Instr} {s t : State} (hw : i.wellFormed = true) (he : s.err = false)
    (h : ∀ rest, exec i (s.setRequests rest) = .next (t.setRequests rest)) : ServesTo [cmdAccess (encode i)] s t :=
  servesTo_write (r := .cmd) fun rest =>
    (writeCmd_of_decode (s := s.setRequests rest) he (decode_encode hw)).trans (h rest)

/-! ## The pseudo-instructions (30_encoding.md R79) -/

/-- The four words of 32 hex digits. -/
def hexBlock (h : BitVec 128) : Block := ⟨hexWord h 0, hexWord h 1, hexWord h 2, hexWord h 3⟩

/-- KEYB after KEY0 to KEY3 are written with the words of x, in this order. -/
def keyWriteAll (k : Vector Byte 16) (x : Block) : Vector Byte 16 :=
  keyWrite (keyWrite (keyWrite (keyWrite k 0 x.x0) 1 x.x1) 2 x.x2) 3 x.x3

theorem masterKey_keyWriteAll (k : Vector Byte 16) (x : Block) : masterKey (keyWriteAll k x) = x := by
  simp [masterKey, keyWriteAll, keyRead_keyWrite_same, keyRead_keyWrite_other]

/-- The accesses of `setkey`. -/
def setkeyAccesses (h : BitVec 128) : List Access :=
  [writeAccess (.key 0) (hexWord h 0), writeAccess (.key 1) (hexWord h 1), writeAccess (.key 2) (hexWord h 2),
    writeAccess (.key 3) (hexWord h 3)]

theorem servesTo_writeKey (n : Fin 4) (v : Word) (s : State) : ServesTo [writeAccess (.key n) v] s (writeKey n v s) :=
  servesTo_write fun _ => rfl

/-- A KEY write after KEYB was changed and KSV cleared. -/
theorem writeKey_setKeyb_setKsv (n : Fin 4) (v : Word) (s : State) (k : Vector Byte 16) (c : Bool) :
    writeKey n v ((s.setKeyb k).setKsv c) = (s.setKeyb (keyWrite k n v)).setKsv false := rfl

theorem servesTo_setkey (h : BitVec 128) (s : State) :
    ServesTo (setkeyAccesses h) s ((s.setKeyb (keyWriteAll s.keyb (hexBlock h))).setKsv false) := by
  have hfirst : ServesTo [writeAccess (.key 0) (hexWord h 0)] s
      ((s.setKeyb (keyWrite s.keyb 0 (hexWord h 0))).setKsv false) := servesTo_writeKey 0 (hexWord h 0) s
  have hwrites := hfirst.cons ((servesTo_writeKey 1 (hexWord h 1) _).cons ((servesTo_writeKey 2 (hexWord h 2) _).cons
    (servesTo_writeKey 3 (hexWord h 3) _)))
  rw [writeKey_setKeyb_setKsv, writeKey_setKeyb_setKsv, writeKey_setKeyb_setKsv] at hwrites
  rwa [setkeyAccesses, keyWriteAll, hexBlock]

/-- The accesses of `ldblk`. -/
def ldblkAccesses (b : Fin 8) (h : BitVec 128) : List Access :=
  [writeAccess (blockReg b 0) (hexWord h 0), writeAccess (blockReg b 1) (hexWord h 1),
    writeAccess (blockReg b 2) (hexWord h 2), writeAccess (blockReg b 3) (hexWord h 3)]

/-- DBUF(4b+i) is word i of block b (10_state.md R23). -/
theorem dbufAddr_eq_wordAddr (b : Fin 8) (i : Fin 4) (h : 4 * b.val + i.val < 32) :
    dbufAddr ⟨4 * b.val + i.val, h⟩ = wordAddr b.val i.val := by
  unfold dbufAddr wordAddr
  dsimp only
  omega

theorem servesTo_writeBlockReg (b : Fin 8) (i : Fin 4) (v : Word) (s : State) :
    ServesTo [writeAccess (blockReg b i) v] s (s.setDb (memWrite s.db (wordAddr b.val i.val) v)) := by
  rw [← dbufAddr_eq_wordAddr b i (by omega)]
  exact servesTo_write fun _ => rfl

theorem servesTo_ldblk (b : Fin 8) (p : BitVec 128) (s : State) :
    ServesTo (ldblkAccesses b p) s (s.setDb (storeBlock s.db b.val (hexBlock p))) := by
  have hwrites := (servesTo_writeBlockReg b 0 (hexWord p 0) s).cons ((servesTo_writeBlockReg b 1 (hexWord p 1) _).cons
    ((servesTo_writeBlockReg b 2 (hexWord p 2) _).cons (servesTo_writeBlockReg b 3 (hexWord p 3) _)))
  simp only [setDb_setDb, setDb_db] at hwrites
  rwa [ldblkAccesses, storeBlock, hexBlock]

/-- The accesses of `stblk`. -/
def stblkAccesses (b : Fin 8) : List Access :=
  [readAccess (blockReg b 0), readAccess (blockReg b 1), readAccess (blockReg b 2), readAccess (blockReg b 3)]

/-- The four words of a block returned to the host, in order. -/
def State.respondBlock (s : State) (x : Block) : State := (((s.respond x.x0).respond x.x1).respond x.x2).respond x.x3

theorem servesTo_readBlockReg (b : Fin 8) (i : Fin 4) (s : State) :
    ServesTo [readAccess (blockReg b i)] s (s.respond (memRead s.db (wordAddr b.val i.val))) := by
  rw [← dbufAddr_eq_wordAddr b i (by omega)]
  exact servesTo_read (blockReg b i) s

theorem servesTo_stblk (b : Fin 8) (s : State) : ServesTo (stblkAccesses b) s (s.respondBlock (loadBlock s.db b.val)) :=
  .cons (servesTo_readBlockReg b 0 _) (.cons (servesTo_readBlockReg b 1 _)
    (.cons (servesTo_readBlockReg b 2 _) (servesTo_readBlockReg b 3 _)))

/-! ## The order of use (R253) -/

/-- The state after KEY0 to KEY3 are written with h and KEYEXP. -/
def keyedState (h : BitVec 128) (s : State) : State :=
  (((s.setKeyb (keyWriteAll s.keyb (hexBlock h))).setKsv false).setRk (keySchedule (hexBlock h))).setKsv true

@[simp] theorem keyedState_rk (h : BitVec 128) (s : State) : (keyedState h s).rk = keySchedule (hexBlock h) := by
  rw [keyedState, setKsv_rk, setRk_rk]

@[simp] theorem keyedState_db (h : BitVec 128) (s : State) : (keyedState h s).db = s.db := by
  rw [keyedState, setKsv_db, setRk_db, setKsv_db, setKeyb_db]

@[simp] theorem keyedState_ksv (h : BitVec 128) (s : State) : (keyedState h s).ksv = true := by
  rw [keyedState, setKsv_ksv]

@[simp] theorem keyedState_err (h : BitVec 128) (s : State) : (keyedState h s).err = s.err := by
  rw [keyedState, setKsv_err, setRk_err, setKsv_err, setKeyb_err]

@[simp] theorem keyedState_errcode (h : BitVec 128) (s : State) : (keyedState h s).errcode = s.errcode := by
  rw [keyedState, setKsv_errcode, setRk_errcode, setKsv_errcode, setKeyb_errcode]

@[simp] theorem keyedState_responses (h : BitVec 128) (s : State) : (keyedState h s).responses = s.responses := by
  rw [keyedState, setKsv_responses, setRk_responses, setKsv_responses, setKeyb_responses]

theorem servesTo_keyexp {s : State} (he : s.err = false) :
    ServesTo [cmdAccess (encode .keyexp)] s ((s.setRk (keySchedule (masterKey s.keyb))).setKsv true) :=
  servesTo_command rfl he fun rest => exec_keyexp (s.setRequests rest)

/-- Steps 1 and 2: after `setkey h` and KEYEXP, RK is the key schedule of h. -/
theorem servesTo_setkey_keyexp (h : BitVec 128) {s : State} (he : s.err = false) :
    ServesTo (setkeyAccesses h ++ [cmdAccess (encode .keyexp)]) s (keyedState h s) := by
  have hkeyexp := servesTo_keyexp (s := (s.setKeyb (keyWriteAll s.keyb (hexBlock h))).setKsv false)
    (by rwa [setKsv_err, setKeyb_err])
  rw [setKsv_keyb, setKeyb_keyb, masterKey_keyWriteAll] at hkeyexp
  rw [keyedState]
  exact (servesTo_setkey h s).append hkeyexp

theorem setDb_setRequests (s : State) (m : Memory) (rest : List HostEvent) :
    (s.setRequests rest).setDb m = (s.setDb m).setRequests rest := rfl

/-- ENC1 b with a key schedule leaves alone the requests still to come. -/
theorem exec_enc1_setRequests {s : State} {b : Nat} (hb : b < 8) (hk : s.ksv = true) (rest : List HostEvent) :
    exec (.enc1 b) (s.setRequests rest) = .next ((s.setDb (cryptDb s.rk s.db b)).setRequests rest) := by
  rw [exec_enc1_of_ksv hb (by rwa [setRequests_ksv]), cryptBlock, setRequests_db, rkEnc, setRequests_rk,
    ← cryptDb, setDb_setRequests]

theorem servesTo_enc1 (b : Fin 8) {s : State} (he : s.err = false) (hk : s.ksv = true) :
    ServesTo [cmdAccess (encode (.enc1 b.val))] s (s.setDb (cryptDb s.rk s.db b.val)) :=
  servesTo_command (decide_eq_true b.isLt) he (exec_enc1_setRequests b.isLt hk)

/-- Steps 3 and 4: after `ldblk b p` and ENC1 b, block b is p encrypted under RK. -/
theorem servesTo_ldblk_enc1 (b : Fin 8) (p : BitVec 128) {s : State} (hw : CanonicalDb s) (he : s.err = false)
    (hk : s.ksv = true) : ∃ m, ServesTo (ldblkAccesses b p ++ [cmdAccess (encode (.enc1 b.val))]) s (s.setDb m) ∧
      loadBlock m b.val = blockF (hexBlock p) s.rk := by
  have henc1 := servesTo_enc1 b (s := s.setDb (storeBlock s.db b.val (hexBlock p))) (by rwa [setDb_err]) (by rwa [setDb_ksv])
  rw [setDb_setDb, setDb_rk, setDb_db] at henc1
  refine ⟨_, (servesTo_ldblk b p s).append henc1, ?_⟩
  rw [loadBlock_cryptDb_same (wf_storeBlock hw b.isLt _) _ b.isLt, loadBlock_storeBlock_same hw b.isLt]

/-- STATUS with a key schedule and no error (10_state.md R25). -/
theorem statusWord_of_ready {s : State} (hk : s.ksv = true) (he : s.err = false) (hc : s.errcode = 0) :
    statusWord s = 0x00000001 := by
  rw [statusWord, hk, he, hc]
  decide

/-- Step 5: `chk` with a key schedule and no error reads STATUS 1. -/
theorem servesTo_chk {s : State} (hk : s.ksv = true) (he : s.err = false) (hc : s.errcode = 0) :
    ServesTo [readAccess .status] s (s.respond 0x00000001) := by
  have hread := servesTo_read .status s
  rwa [readReg, statusWord_of_ready hk he hc] at hread

/-- The accesses of the program of R253, for a key h, a block p and an index b. -/
def orderOfUse (h p : BitVec 128) (b : Fin 8) : List Access :=
  (setkeyAccesses h ++ [cmdAccess (encode .keyexp)]) ++ ((ldblkAccesses b p ++ [cmdAccess (encode (.enc1 b.val))]) ++
    ([readAccess .status] ++ stblkAccesses b))

theorem assemble_orderOfUse (h p : BitVec 128) (b : Fin 8) :
    assemble ((Pseudo.setkey h).expand ++ [.command .keyexp] ++ (Pseudo.ldblk b p).expand ++ [.command (.enc1 b.val)] ++
      Pseudo.chk.expand ++ (Pseudo.stblk b).expand) = some (orderOfUse h p b) := by
  have hwb : (Instr.enc1 b.val).wellFormed = true := decide_eq_true b.isLt
  have henc1 : Line.access (.command (.enc1 b.val)) = some (cmdAccess (encode (.enc1 b.val))) := if_pos hwb
  simp only [Pseudo.expand, List.cons_append, List.nil_append, assemble, henc1]
  rfl

/-- The program reads STATUS 1 and p encrypted under the key schedule of h. -/
theorem servesTo_orderOfUse (h p : BitVec 128) (b : Fin 8) {s : State} (hw : CanonicalDb s) (he : s.err = false)
    (hc : s.errcode = 0) : ∃ m, ServesTo (orderOfUse h p b) s
      ((((keyedState h s).setDb m).respond 0x00000001).respondBlock (blockF (hexBlock p) (keySchedule (hexBlock h)))) := by
  have hw' : CanonicalDb (keyedState h s) := by rwa [CanonicalDb, keyedState_db]
  have he' : (keyedState h s).err = false := by rwa [keyedState_err]
  have hc' : (keyedState h s).errcode = 0 := by rwa [keyedState_errcode]
  obtain ⟨m, hcrypt, hblock⟩ := servesTo_ldblk_enc1 b p hw' he' (keyedState_ksv h s)
  rw [keyedState_rk] at hblock
  have hstatus := servesTo_chk (s := (keyedState h s).setDb m) (by rw [setDb_ksv, keyedState_ksv]) (by rwa [setDb_err])
    (by rwa [setDb_errcode])
  have hstore := servesTo_stblk b (((keyedState h s).setDb m).respond 0x00000001)
  rw [respond_db, setDb_db, hblock] at hstore
  exact ⟨m, (servesTo_setkey_keyexp h he).append (hcrypt.append (hstatus.append hstore))⟩

theorem respondBlock_responses (s : State) (x : Block) :
    (s.respondBlock x).responses = s.responses ++ [x.x0, x.x1, x.x2, x.x3] := by
  simp [State.respondBlock]

/-- Settles O59: the lists of accesses of R253, one after another. -/
theorem orderOfUseEncryptsUnderTheKey : Obligations.OrderOfUseEncryptsUnderTheKey := by
  intro s h p b hw he hc hreq
  obtain ⟨m, hserve⟩ := servesTo_orderOfUse h p b hw he hc
  have hs : s.withAccesses (orderOfUse h p b) = s.setRequests ((orderOfUse h p b).map .access ++ []) := by
    rw [State.withAccesses, hreq, List.nil_append, List.append_nil]
  have hrun := hserve.runsTo []
  rw [← hs] at hrun
  refine ⟨_, _, assemble_orderOfUse h p b, hrun, setRequests_requests _ _, ?_⟩
  intro key plain y
  have hkey : hexBlock h = key := rfl
  have hplain : hexBlock p = plain := rfl
  rw [setRequests_responses, respondBlock_responses, hkey, hplain, respond_responses, setDb_responses, keyedState_responses,
    List.append_assoc]
  rfl

/-! ## The known-answer vector (40_constant_tables.md R107) -/

/-- Settles O60: encryption is computed, and decryption undoes it by `decryptionUndoesEncryption`. -/
theorem knownAnswerVectorIsReproduced : Obligations.KnownAnswerVectorIsReproduced := by
  have hforward : blockF ⟨0x01234567, 0x89ABCDEF, 0xFEDCBA98, 0x76543210⟩
      (keySchedule ⟨0x01234567, 0x89ABCDEF, 0xFEDCBA98, 0x76543210⟩) =
      ⟨0x681EDF34, 0xD206965E, 0x86B3E94F, 0x536E4246⟩ := by decide
  refine ⟨hforward, ?_⟩
  rw [← hforward]
  exact decryptionUndoesEncryption _ _

end Sys2Proof.Machine
